-- ==== Sys2Proof/Word.lean ====
section
/-!
DEFINITION. Word.lean: the word types of the FBC and the one shape in which every byte space is held.
Rules: `00_scope.md` R10, R11; `30_encoding.md` R91; `20_memory.md` R60, R64.
-/

namespace Sys2Proof

/-- A byte: "A byte is 8 bits" (R10); the only access width (R64). -/
abbrev Byte := BitVec 8

/-- A command word: "Every command is one 32-bit word" (R91). -/
abbrev CmdWord := BitVec 32

/-- One byte space of R60 as plain data: the listed (index, byte) pairs, indices strictly rising, no entry that holds the byte an
unlisted index reads as. `Machine/Memory.lean` has the operations. -/
abbrev Memory := List Host.Cell

/-- The dirty tracker's "set-of-tile-index" (R24) as plain data: the indices in the set, strictly rising. -/
abbrev DirtySet := List Nat

end Sys2Proof
end

