-- ==== Sys2Proof/Config.lean ====
section
/-!
DEFINITION. Config.lean: the configuration record `Cfg` (`00_scope.md` R4, R5, R6, R7, R8), the default table of R196, and the one
free value of the model (what a later reset leaves in the memories, `10_state.md` R38, R242).

`Cfg` is created once and is "immutable thereafter" (`00_scope.md` section 3). It is plain data, so that a machine can be written
out and compared: the total functions `TGFX`, `TPEN`, `SGFX`, `SPEN` are held as tables (log 8), read in `Machine/Patterns.lean`.
-/

namespace Sys2Proof

/-- `SPR_STRIDE`: "4 or 16" bytes per sprite record (R8). -/
inductive SprStride where
  | four
  | sixteen
deriving DecidableEq, Repr

/-- The default `LAYOUT` of R196, row `cy` after row `cy`, entry `LAYOUT[cy][cx]` at `8*cy + cx`.
PRESUMED (the spec's own mark: "from general knowledge, not in source", G1; log 11). -/
def defaultLayout : List (Fin 64) :=
  [0, 1, 4, 5, 16, 17, 20, 21] ++
  [2, 3, 6, 7, 18, 19, 22, 23] ++
  [8, 9, 12, 13, 24, 25, 28, 29] ++
  [10, 11, 14, 15, 26, 27, 30, 31] ++
  [32, 33, 36, 37, 48, 49, 52, 53] ++
  [34, 35, 38, 39, 50, 51, 54, 55] ++
  [40, 41, 44, 45, 56, 57, 60, 61] ++
  [42, 43, 46, 47, 58, 59, 62, 63]

/-- The parameters of one tile layer (R5). -/
structure LayerCfg where
  /-- `TILE_W[l]`, in pixels. -/
  tileW : Nat
  /-- `TILE_H[l]`, in pixels. -/
  tileH : Nat
  /-- `MAP_W[l]`, in tiles. -/
  mapW : Nat
  /-- `MAP_H[l]`, in tiles. -/
  mapH : Nat
  /-- `TRANSP[l]`: the pen that is not copied; `none` makes the layer opaque. -/
  transp : Option Byte
  /-- `LPRI[l]`: the layer's priority bitmask. -/
  lpri : Byte
  /-- `NPAT[l]`: number of patterns. -/
  npat : Nat
  /-- `TGFX[l]`: pixel `(code, oy, ox)` at key `(code*TILE_H + oy)*TILE_W + ox`; an unlisted pixel is 0. -/
  tgfx : Memory
  /-- `TPEN[l]`: pen of `(color, pix)` at key `color*256 + pix`; an unlisted pair has the default pen of R7. -/
  tpen : Memory := []
deriving DecidableEq, Repr

/-- The configuration of one machine (R4, R5, R8). `NLAYERS` is the length of `layers`. -/
structure Cfg where
  /-- `SCREEN_W`, in pixels. -/
  screenW : Nat
  /-- `SCREEN_H`, in pixels. -/
  screenH : Nat
  /-- `BG_PEN`: the pen the framebuffer is filled with before any layer is drawn. -/
  bgPen : Byte
  /-- `FILL`: the value of a read that reaches nothing. -/
  fill : Byte
  /-- The tile layers, back to front (R168). -/
  layers : List LayerCfg
  /-- `SPR_STRIDE`. -/
  stride : SprStride
  /-- `NSPR`: number of sprite records. -/
  nspr : Nat
  /-- `SPR_CELL_W`, in pixels. -/
  cellW : Nat
  /-- `SPR_CELL_H`, in pixels. -/
  cellH : Nat
  /-- `NSPAT`: number of sprite patterns. -/
  nspat : Nat
  /-- `SGFX`: pixel `(code, oy, ox)` at key `(code*SPR_CELL_H + oy)*SPR_CELL_W + ox`; an unlisted pixel is 0. -/
  sgfx : Memory
  /-- `SPEN`: as `LayerCfg.tpen`. -/
  spen : Memory := []
  /-- `SPR_TRANSP`: the sprite transparency pen, or `none`. -/
  sprTransp : Option Byte
  /-- `LAYOUT[cy][cx]` at `8*cy + cx`, each entry 0..63. -/
  layout : List (Fin 64) := defaultLayout
  /-- `DOUBLE_DRAW`: the records drawn a second time, rising; "default empty". -/
  doubleDraw : List Nat := []
deriving DecidableEq, Repr

namespace Config

/-- The stores whose content a reset leaves unspecified (R38). -/
inductive Store where
  | tm (l : Nat)
  | am (l : Nat)
  | bmp (l : Nat)
  | spr
  | fb
  | pri
deriving DecidableEq, Repr

/-- FREE VALUE (log 4): the byte that the `k`-th reset event taken by a running machine leaves at an index of a store that held `held`
there. "the model must not assume any particular value" (R38); "must not assume they were kept, and must not assume they were cleared"
(R242). It has no body, so nothing can be proved of the byte: it may be the one held, 0 or any other. That it depends on these four
arguments and on nothing else of the machine is a DESIGN CHOICE (log 4). -/
opaque powerUpByte (k : Nat) (store : Store) (index : Nat) (held : Byte) : Byte

end Config

/-- The test configuration TC1 of `95_test_vectors.md` section 0, the configuration `State.reset` carries (DESIGN CHOICE, log 2).
A layer: 2 by 2 tiles of 2 by 2 pixels, patterns 0..3 with pixel `(code + 2*oy + ox) mod 4`, patterns 4..7 blank. -/
def tc1Layer (transp : Option Byte) (lpri : Byte) : LayerCfg where
  tileW := 2
  tileH := 2
  mapW := 2
  mapH := 2
  transp := transp
  lpri := lpri
  npat := 8
  tgfx := [(1, 1), (2, 2), (3, 3), (4, 1), (5, 2), (6, 3), (8, 2), (9, 3), (11, 1), (12, 3), (14, 1), (15, 2)]

/-- `SPEN` of TC1 on the pixel values 0..3 its sprite patterns hold: `0x00` for pixel 0, else `0x80 | (color << 4) | pix`; the other
pixel values, which no pattern of TC1 holds, keep the default (log 2). -/
def tc1Spen : Memory :=
  [(1, 0x81), (2, 0x82), (3, 0x83),
   (256, 0x00), (257, 0x91), (258, 0x92), (259, 0x93),
   (512, 0x00), (513, 0xA1), (514, 0xA2), (515, 0xA3),
   (768, 0x00), (769, 0xB1), (770, 0xB2), (771, 0xB3),
   (1024, 0x00), (1025, 0xC1), (1026, 0xC2), (1027, 0xC3),
   (1280, 0x00), (1281, 0xD1), (1282, 0xD2), (1283, 0xD3),
   (1536, 0x00), (1537, 0xE1), (1538, 0xE2), (1539, 0xE3)] ++
  [(1792, 0x00), (1793, 0xF1), (1794, 0xF2), (1795, 0xF3),
   (2048, 0x00), (2304, 0x00), (2560, 0x00), (2816, 0x00),
   (3072, 0x00), (3328, 0x00), (3584, 0x00), (3840, 0x00)]

/-- TC1 (`95_test_vectors.md` section 0): two layers, 4 by 4 screen, 4-byte sprite records (log 2). -/
def tc1 : Cfg where
  screenW := 4
  screenH := 4
  bgPen := 0xEE
  fill := 0xFF
  layers := [tc1Layer none 0x01, tc1Layer (some 0x00) 0x02]
  stride := .four
  nspr := 2
  cellW := 2
  cellH := 2
  nspat := 8
  sgfx := [(1, 1), (2, 2), (3, 3), (4, 1), (5, 2), (6, 3), (8, 2), (9, 3), (11, 1), (12, 3), (14, 1), (15, 2),
    (17, 1), (18, 2), (19, 3), (20, 1), (21, 2), (22, 3), (24, 2), (25, 3), (27, 1), (28, 3), (30, 1), (31, 2)]
  spen := tc1Spen
  sprTransp := some 0x00

end Sys2Proof
end

