-- ==== Sys2Proof/Machine/Memory.lean ====
section
/-!
DEFINITION. Machine/Memory.lean: reading and writing one byte space (`00_scope.md` R12: `MemRead(S, a, 1)`, `MemWrite(S, a, 1, v)`;
`20_memory.md` R60, R64) and the operations of the dirty set (`10_state.md` R24). `Laws/Memory.lean` says what each can do.
-/

namespace Sys2Proof

/-- The byte an unlisted index of a space reads as. DESIGN CHOICE, unsafe (log 3): the spec leaves the content of the memories after
reset unspecified (R38). -/
def Memory.unlisted : Byte := 0

/-- The entry listed at an index. -/
def Memory.lookup : Memory → Nat → Option Byte
  | [], _ => none
  | (k, b) :: m, a => if a = k then some b else Memory.lookup m a

/-- `MemRead(S, a, 1)` (R12). -/
def Memory.read (m : Memory) (a : Nat) : Byte :=
  (Memory.lookup m a).getD Memory.unlisted

/-- `MemWrite(S, a, 1, v)` (R12), keeping the canonical form: the byte of an unlisted index is not listed. -/
def Memory.write : Memory → Nat → Byte → Memory
  | [], a, v => if v = Memory.unlisted then [] else [(a, v)]
  | (k, b) :: m, a, v =>
    if a < k then (if v = Memory.unlisted then (k, b) :: m else (a, v) :: (k, b) :: m)
    else if a = k then (if v = Memory.unlisted then m else (a, v) :: m)
    else (k, b) :: Memory.write m a v

/-- The writes of a list of cells, in order. -/
def Memory.writeMany (m : Memory) (cells : List Host.Cell) : Memory :=
  cells.foldl (fun m c => Memory.write m c.1 c.2) m

/-- The space of `n` entries whose entry `a` is `f a`: every entry written. -/
def Memory.tabulate (n : Nat) (f : Nat → Byte) : Memory :=
  (List.range n).filterMap (fun a => if f a = Memory.unlisted then none else some (a, f a))

/-- Indices rise strictly from `lo`, stay below `hi`, and no entry is the byte of an unlisted index. -/
def Memory.wfFrom (lo hi : Nat) : Memory → Bool
  | [] => true
  | (a, b) :: m => decide (lo ≤ a) && decide (a < hi) && decide (b ≠ Memory.unlisted) && Memory.wfFrom (a + 1) hi m

/-- The canonical form of a space of `n` entries. -/
def Memory.wf (n : Nat) (m : Memory) : Bool :=
  Memory.wfFrom 0 n m

/-- `DIRTY[l][i]` (R24). -/
def DirtySet.has (d : DirtySet) (i : Nat) : Bool :=
  d.elem i

/-- `DIRTY[l][i] <- 1`: "marking a tile that is already dirty changes nothing" (R24). -/
def DirtySet.mark : DirtySet → Nat → DirtySet
  | [], i => [i]
  | k :: d, i => if i < k then i :: k :: d else if i = k then k :: d else k :: DirtySet.mark d i

/-- `DIRTY[l][i] <- 0`. -/
def DirtySet.clear : DirtySet → Nat → DirtySet
  | [], _ => []
  | k :: d, i => if i = k then DirtySet.clear d i else k :: DirtySet.clear d i

/-- Every one of `n` bits 1 (R38, R161). -/
def DirtySet.full (n : Nat) : DirtySet :=
  List.range n

/-- The set's indices rise strictly from `lo` and stay below `hi`. -/
def DirtySet.wfFrom (lo hi : Nat) : DirtySet → Bool
  | [] => true
  | i :: d => decide (lo ≤ i) && decide (i < hi) && DirtySet.wfFrom (i + 1) hi d

/-- The canonical form of a set of indices below `n`. -/
def DirtySet.wf (n : Nat) (d : DirtySet) : Bool :=
  DirtySet.wfFrom 0 n d

end Sys2Proof
end

