-- ==== Sys2Proof/Machine/Patterns.lean ====
section
/-!
DEFINITION. Machine/Patterns.lean: the derived sizes of a configuration (`00_scope.md` R5, R8) and the configuration's functions:
pattern stores (R6), colour lookups (R7) and the `LAYOUT` table (R8, `43_sprite_compositor.md` R196).
-/

namespace Sys2Proof

/-- `NLAYERS` (R4). -/
def Cfg.nLayers (cfg : Cfg) : Nat := cfg.layers.length

/-- `NT[l] = MAP_W[l] * MAP_H[l]` (R5). -/
def LayerCfg.nt (c : LayerCfg) : Nat := c.mapW * c.mapH

/-- `BW[l] = MAP_W[l] * TILE_W[l]` (R5). -/
def LayerCfg.bw (c : LayerCfg) : Nat := c.mapW * c.tileW

/-- `BH[l] = MAP_H[l] * TILE_H[l]` (R5). -/
def LayerCfg.bh (c : LayerCfg) : Nat := c.mapH * c.tileH

/-- Number of pixels of the layer bitmap `BMP[l]` (R34). -/
def LayerCfg.bmpSize (c : LayerCfg) : Nat := c.bh * c.bw

/-- `SPR_STRIDE` in bytes (R8). -/
def SprStride.bytes : SprStride → Nat
  | .four => 4
  | .sixteen => 16

/-- `SPR_BYTES = NSPR * SPR_STRIDE` (R8). -/
def Cfg.sprBytes (cfg : Cfg) : Nat := cfg.nspr * cfg.stride.bytes

/-- Number of pixels of the framebuffer and of the priority buffer (R35, R36). -/
def Cfg.screenSize (cfg : Cfg) : Nat := cfg.screenH * cfg.screenW

/-- The default pen `(color * 16 + pix) mod 256` (R7). -/
def defaultPen (color : Nat) (pix : Byte) : Byte :=
  BitVec.ofNat 8 (color * 16 + pix.toNat)

/-- A colour lookup: the table's pen, or the default of R7 where the table has none. -/
def penOf (table : Memory) (color : Nat) (pix : Byte) : Byte :=
  (Memory.lookup table (color * 256 + pix.toNat)).getD (defaultPen color pix)

/-- `TGFX[l](code, oy, ox)` (R5, R6). -/
def LayerCfg.tgfxAt (c : LayerCfg) (code oy ox : Nat) : Byte :=
  Memory.read c.tgfx ((code * c.tileH + oy) * c.tileW + ox)

/-- `TPEN[l](color, pix)` (R5, R7). -/
def LayerCfg.tpenAt (c : LayerCfg) (color : Nat) (pix : Byte) : Byte :=
  penOf c.tpen color pix

/-- `SGFX(code, oy, ox)` (R6, R8). -/
def Cfg.sgfxAt (cfg : Cfg) (code oy ox : Nat) : Byte :=
  Memory.read cfg.sgfx ((code * cfg.cellH + oy) * cfg.cellW + ox)

/-- `SPEN(color, pix)` (R7, R8). -/
def Cfg.spenAt (cfg : Cfg) (color : Nat) (pix : Byte) : Byte :=
  penOf cfg.spen color pix

/-- `LAYOUT[cy][cx]` (R8). -/
def Cfg.layoutAt (cfg : Cfg) (cy cx : Nat) : Nat :=
  (cfg.layout.getD (8 * cy + cx) 0).val

end Sys2Proof
end

