-- ==== Sys2Proof/Machine/ConfigCheck.lean ====
section
/-!
DEFINITION. Machine/ConfigCheck.lean: the single checks of a configuration's ranges (`00_scope.md` R4, R5, R8, R9).
`WellFormed.lean` joins them. `Cfg.errors` names the ones that fail, for the "descriptive error" of R9 and `60_exceptions.md` R222.
-/

namespace Sys2Proof

/-- `NLAYERS` 1..8, `SCREEN_W`, `SCREEN_H` 1..256 (R4). -/
def Cfg.globalOk (cfg : Cfg) : Bool :=
  decide (1 ≤ cfg.nLayers) && decide (cfg.nLayers ≤ 8) &&
  decide (1 ≤ cfg.screenW) && decide (cfg.screenW ≤ 256) &&
  decide (1 ≤ cfg.screenH) && decide (cfg.screenH ≤ 256)

/-- `TILE_W`, `TILE_H`, `MAP_W`, `MAP_H` at least 1 and `NT` at most 65536 (R5). -/
def LayerCfg.sizesOk (c : LayerCfg) : Bool :=
  decide (1 ≤ c.tileW) && decide (1 ≤ c.tileH) && decide (1 ≤ c.mapW) && decide (1 ≤ c.mapH) && decide (c.nt ≤ 65536)

/-- A pattern store of `n` pixels (R6): at least one pattern, its table in canonical form. -/
def patternsOk (count pixels : Nat) (table : Memory) : Bool :=
  decide (1 ≤ count) && Memory.wf (count * pixels) table

/-- The keys of a colour lookup rise from `lo` and stay in the domain `color` 0..15, `pix` 0..255 (R7), and no entry repeats the
default. -/
def pensOkFrom (lo : Nat) : Memory → Bool
  | [] => true
  | (k, b) :: m => decide (lo ≤ k) && decide (k < 4096) && decide (b ≠ defaultPen (k / 256) (BitVec.ofNat 8 k)) && pensOkFrom (k + 1) m

/-- A colour lookup is a total function on its domain in canonical form (R7, R9). -/
def pensOk (table : Memory) : Bool := pensOkFrom 0 table

/-- The ranges of R5 for one layer. -/
def LayerCfg.ok (c : LayerCfg) : Bool :=
  c.sizesOk && patternsOk c.npat (c.tileH * c.tileW) c.tgfx && pensOk c.tpen

/-- `NSPR` at least 1, `NSPR * SPR_STRIDE` at most 65536, cells at least 1 by 1 (R8). -/
def Cfg.spritesOk (cfg : Cfg) : Bool :=
  decide (1 ≤ cfg.nspr) && decide (cfg.sprBytes ≤ 65536) && decide (1 ≤ cfg.cellW) && decide (1 ≤ cfg.cellH)

/-- `LAYOUT` is 8 by 8 (R8); its entries are 0..63 by their type. -/
def Cfg.layoutOk (cfg : Cfg) : Bool :=
  decide (cfg.layout.length = 64)

/-- `DOUBLE_DRAW` is a subset of `0..NSPR-1` (R8), listed once each, rising. -/
def Cfg.doubleDrawOk (cfg : Cfg) : Bool :=
  DirtySet.wf cfg.nspr cfg.doubleDraw

/-- What is wrong with a configuration (R9, R222). The text of the error is not specified (U19): one name per check (log 9). -/
inductive ConfigError where
  /-- `NLAYERS`, `SCREEN_W` or `SCREEN_H` (R4). -/
  | globals
  /-- The sizes of layer `l` (R5). -/
  | layerSizes (l : Nat)
  /-- `NPAT` or `TGFX` of layer `l` (R5, R6). -/
  | layerPatterns (l : Nat)
  /-- `TPEN` of layer `l` (R7). -/
  | layerPens (l : Nat)
  /-- `NSPR`, `SPR_CELL_W` or `SPR_CELL_H` (R8). -/
  | sprites
  /-- `NSPAT` or `SGFX` (R6, R8). -/
  | spritePatterns
  /-- `SPEN` (R7, R8). -/
  | spritePens
  /-- `LAYOUT` (R8). -/
  | layout
  /-- `DOUBLE_DRAW` (R8). -/
  | doubleDraw
deriving DecidableEq, Repr

/-- The error of one check, when it fails. -/
def reportUnless (ok : Bool) (e : ConfigError) : List ConfigError :=
  if ok then [] else [e]

/-- The failing checks of the layers, from layer number `l` on. -/
def layerErrors : Nat → List LayerCfg → List ConfigError
  | _, [] => []
  | l, c :: cs =>
    reportUnless c.sizesOk (.layerSizes l) ++ reportUnless (patternsOk c.npat (c.tileH * c.tileW) c.tgfx) (.layerPatterns l) ++
    reportUnless (pensOk c.tpen) (.layerPens l) ++ layerErrors (l + 1) cs

/-- Every failing check of a configuration; none exactly when it is well formed (`Cfg.errors_eq_nil`). -/
def Cfg.errors (cfg : Cfg) : List ConfigError :=
  reportUnless cfg.globalOk .globals ++ layerErrors 0 cfg.layers ++ reportUnless cfg.spritesOk .sprites ++
  reportUnless (patternsOk cfg.nspat (cfg.cellH * cfg.cellW) cfg.sgfx) .spritePatterns ++ reportUnless (pensOk cfg.spen) .spritePens ++
  reportUnless cfg.layoutOk .layout ++ reportUnless cfg.doubleDrawOk .doubleDraw

end Sys2Proof
end

