-- ==== Sys2Proof/Syntax.lean ====
section
/-!
DEFINITION. Syntax.lean: the commands of the command port, one constructor per row of `spec/opcode_table.json`
(`30_encoding.md` R92, R93, R95). Operand fields are bit vectors of the field's width (R99), so each value a field can hold is a term
and no other is. A field the format does not use (R94) is no argument.
-/

namespace Sys2Proof

/-- The sixteen rows of the opcode table: 14 commands and the two reserved opcodes (R93, R95). -/
inductive Instr where
  /-- `NOP` (R140). -/
  | nop
  /-- `TWR l, i, v` (R120). -/
  | twr (sel : BitVec 4) (off : BitVec 16) (data : Byte)
  /-- `AWR l, i, v` (R121). -/
  | awr (sel : BitVec 4) (off : BitVec 16) (data : Byte)
  /-- `TRD l, i` (R122). -/
  | trd (sel : BitVec 4) (off : BitVec 16)
  /-- `ARD l, i` (R123). -/
  | ard (sel : BitVec 4) (off : BitVec 16)
  /-- `SWR k, v` (R124). -/
  | swr (off : BitVec 16) (data : Byte)
  /-- `SRD k` (R125). -/
  | srd (off : BitVec 16)
  /-- `RWR l, r, v` (R141). -/
  | rwr (sel : BitVec 4) (off : BitVec 16) (data : Byte)
  /-- `RRD l, r` (R142). -/
  | rrd (sel : BitVec 4) (off : BitVec 16)
  /-- `FREF` (R144). -/
  | fref
  /-- `PCHG` (R145). -/
  | pchg
  /-- `COMP` (R160). -/
  | comp
  /-- `PXRD x, y` (R127). -/
  | pxrd (x : Byte) (y : Byte)
  /-- `DRD l, i` (R126). -/
  | drd (sel : BitVec 4) (off : BitVec 16)
  /-- Reserved opcode `0xE` (R95). -/
  | rsvdE
  /-- Reserved opcode `0xF` (R95). -/
  | rsvdF
deriving DecidableEq, Repr

end Sys2Proof
end

