-- ==== Sys2Proof/WellFormed.lean ====
section
/-!
DEFINITION. WellFormed.lean: which configurations and which commands are well formed.
"A configuration is well formed when every range in rules R4, R5 and R8 holds and every function is total on its stated domain"
(`00_scope.md` R9). The tables of `Config.lean` are total by the way they are read.
-/

namespace Sys2Proof

/-- A well-formed configuration (R9). -/
def Cfg.wf (cfg : Cfg) : Bool :=
  cfg.globalOk && cfg.layers.all LayerCfg.ok && cfg.spritesOk &&
  patternsOk cfg.nspat (cfg.cellH * cfg.cellW) cfg.sgfx && pensOk cfg.spen && cfg.layoutOk && cfg.doubleDrawOk

/-- A configuration with the proof that it is well formed: the only form in which a machine carries one, so that no state of an
ill-formed configuration exists (R9, `60_exceptions.md` R222). -/
structure BuiltCfg where
  cfg : Cfg
  ok : cfg.wf = true
deriving DecidableEq, Repr

/-- A well-formed command. Each operand is a bit vector of its field's width, and "every one of the 2^32 words decodes to exactly one
of the 14 commands or to a reserved opcode" (R94), so no term is ill formed. -/
def Instr.wf : Instr → Bool
  | .nop | .fref | .pchg | .comp | .rsvdE | .rsvdF => true
  | .twr _ _ _ | .awr _ _ _ | .rwr _ _ _ => true
  | .trd _ _ | .ard _ _ | .rrd _ _ | .drd _ _ => true
  | .swr _ _ | .srd _ | .pxrd _ _ => true

end Sys2Proof
end

