-- ==== Sys2Proof/Machine/State.lean ====
section
/-!
DEFINITION. Machine/State.lean: the state of the FBC (`10_state.md` R22 to R38), why a step can stop, and the state after reset
(R38, `70_reset_and_hazards.md` R240). Plain data throughout.
-/

namespace Sys2Proof.Machine

/-- The state of one tile layer (R22, R23, R24, R33, R34). -/
structure Layer where
  /-- `TM[l]` (R22). -/
  tm : Memory
  /-- `AM[l]` (R23). -/
  am : Memory
  /-- `DIRTY[l]` (R24). -/
  dirty : DirtySet
  /-- `SCX[l]` (R33). -/
  scx : BitVec 16
  /-- `SCY[l]` (R33). -/
  scy : BitVec 16
  /-- `BMP[l]` (R34): pixel in row `v`, column `u` at `v*BW[l] + u`. -/
  bmp : Memory
deriving DecidableEq, Repr

/-- What can arrive at the command port (R90): an issued command word, or the reset signal `rst`, which "is not a command and has no
encoding" (R240). -/
inductive PortInput where
  | command (w : CmdWord)
  | rst
deriving DecidableEq, Repr

/-- The state of the FBC. "There is no other state" (R37); `built`, `port` and `powerUps` are the model's own (logs 1, 5, 4). -/
structure State where
  /-- The configuration, "not state" (`10_state.md`), well formed by its type (R9, R222; log 9): no step changes it (log 1). -/
  built : BuiltCfg
  /-- One record per layer, back to front. -/
  layers : List Layer
  /-- `SPR` (R27). -/
  spr : Memory
  /-- `CTRL.FLIP` (R31). -/
  flip : Bool
  /-- `FULLREF` (R32). -/
  fullref : Bool
  /-- `PALCHG` (R32). -/
  palchg : Bool
  /-- `FB` (R35): pen in row `y`, column `x` at `y*SCREEN_W + x`. -/
  fb : Memory
  /-- `PRI` (R36): as `fb`. -/
  pri : Memory
  /-- The inputs issued to the port and not yet taken, oldest first (R70, R90; log 5). -/
  port : List PortInput
  /-- The response of the last command, `none` where it has no response (R13, R96; log 6). -/
  rsp : Option Byte
  /-- How many reset events the machine has taken: selects the free bytes of the next one (log 4). -/
  powerUps : Nat
deriving DecidableEq, Repr

/-- The configuration of a machine (R4, R5, R8). -/
abbrev State.cfg (s : State) : Cfg := s.built.cfg

/-- Why the FBC stops with a fault: never. "The model's step function is total and returns no fault value" (R220), so the type has no
constructor; nothing raises a fault (log 12). Safe. -/
inductive Fault where
deriving DecidableEq, Repr

/-- Why the model refuses. -/
inductive Refusal where
  /-- Raised by an arm of `exec` whose command has no meaning yet; no arm raises it. Safe. -/
  | notModelled (mnemonic : String)
  /-- Raised by `State.build`, the model's constructor, on an ill-formed configuration, with the checks that fail: it "is refused when
  the machine is built" (R222), "the model has no FBC for it" (R9; log 9). No step raises it. Safe. -/
  | illFormedConfig (errors : List ConfigError)
deriving DecidableEq, Repr

/-- A layer of `State.reset`: nothing listed in its memories, every dirty bit 1, scroll 0. -/
def Layer.blank (c : LayerCfg) : Layer where
  tm := []
  am := []
  dirty := DirtySet.full c.nt
  scx := 0
  scy := 0
  bmp := []

/-- The machine right after reset (R38): configuration TC1 (log 2), memory with nothing listed (log 3), nothing at the port (log 5).
`Laws/Reset.lean` proves that it is `State.afterReset` with every store reading the unlisted byte. -/
def State.reset : State where
  built := ⟨tc1, by decide⟩
  layers := tc1.layers.map Layer.blank
  spr := []
  flip := false
  fullref := false
  palchg := false
  fb := []
  pri := []
  port := []
  rsp := none
  powerUps := 0

end Sys2Proof.Machine
end

