-- ==== Sys2Proof/Machine/Operands.lean ====
section
/-!
DEFINITION. Machine/Operands.lean: how operands select storage (`20_memory.md` R66, R67; `40_memory_port_ops.md` R128;
`41_control_ops.md` R143; `30_encoding.md` R99), the layout of the tile attribute byte (`10_state.md` R26) and of the sprite records
(R28, R29).
-/

namespace Sys2Proof.Machine

/-- The layer a command names (R128): its parameters and its state. `none` is the unmapped access `sel >= NLAYERS` (R67). A layer the
configuration has and the state lacks does not occur in a state that meets `State.wf` (log 14). -/
def State.layerAt (s : State) (l : Nat) : Option (LayerCfg × Layer) :=
  match s.cfg.layers[l]?, s.layers[l]? with
  | some c, some y => some (c, y)
  | _, _ => none

/-- The effective tile index `off mod NT[l]` (R66, R128). -/
def tileIndex (c : LayerCfg) (off : BitVec 16) : Nat :=
  off.toNat % c.nt

/-- The effective byte index `off mod SPR_BYTES` (R66, R128). -/
def spriteIndex (cfg : Cfg) (off : BitVec 16) : Nat :=
  off.toNat % cfg.sprBytes

/-- The key of framebuffer pixel `(x, y)` (R35). -/
def pixelKey (cfg : Cfg) (x y : Nat) : Nat :=
  y * cfg.screenW + x

/-- A register of the register map (R30). -/
inductive Reg where
  | ctrl
  | status
  | scxl (l : Nat)
  | scxh (l : Nat)
  | scyl (l : Nat)
  | scyh (l : Nat)
deriving DecidableEq, Repr

/-- A per-layer register, unmapped when the layer does not exist (R143). -/
def perLayer (cfg : Cfg) (sel : BitVec 4) (r : Nat → Reg) : Option Reg :=
  if sel.toNat < cfg.nLayers then some (r sel.toNat) else none

/-- Register selection (R143); `none` is unmapped. "Register numbers are not wrapped". -/
def selectReg (cfg : Cfg) (sel : BitVec 4) (off : BitVec 16) : Option Reg :=
  match off.toNat with
  | 0 => some .ctrl
  | 1 => some .status
  | 2 => perLayer cfg sel .scxl
  | 3 => perLayer cfg sel .scxh
  | 4 => perLayer cfg sel .scyl
  | 5 => perLayer cfg sel .scyh
  | _ => none

/-- Bits 7:0 of a scroll value (R30, R62). -/
def lowByte (r : BitVec 16) : Byte := r.extractLsb' 0 8

/-- Bits 15:8 of a scroll value (R30, R62). -/
def highByte (r : BitVec 16) : Byte := r.extractLsb' 8 8

/-- `{r[15:8], v}` (R141). -/
def setLowByte (r : BitVec 16) (v : Byte) : BitVec 16 := highByte r ++ v

/-- `{v, r[7:0]}` (R141). -/
def setHighByte (r : BitVec 16) (v : Byte) : BitVec 16 := v ++ lowByte r

/-- `FLIPY` of the attribute byte (R26). -/
def attrFlipY (a : Byte) : Bool := a.getLsbD 7

/-- `FLIPX` of the attribute byte (R26). -/
def attrFlipX (a : Byte) : Bool := a.getLsbD 6

/-- `BANK` of the attribute byte (R26). -/
def attrBank (a : Byte) : Nat := (a.extractLsb' 4 2).toNat

/-- `COLOR` of the attribute byte (R26). -/
def attrColor (a : Byte) : Nat := (a.extractLsb' 0 4).toNat

/-- The fields of a sprite record (R28, R29), values of the step and not state (R203). -/
structure SpriteRecord where
  x : Int
  y : Int
  code : Nat
  color : Nat
  flipX : Bool
  flipY : Bool
  sizeX : Nat
  sizeY : Nat
  priorityMask : Byte
  enable : Bool
deriving DecidableEq, Repr

/-- `sext_16({hi, lo})` (R11, R29). -/
def sext16 (lo hi : Byte) : Int := (hi ++ lo : BitVec 16).toInt

/-- `{hi, lo}` as an unsigned number (R29). -/
def word16 (lo hi : Byte) : Nat := (hi ++ lo : BitVec 16).toNat

/-- The 4-byte record (R28): `sizeX = sizeY = 0`, `priorityMask = 0`. -/
def spriteRecord4 (spr : Memory) (n : Nat) : SpriteRecord :=
  let b := 4 * n
  let flags := Memory.read spr (b + 3)
  { x := (Memory.read spr b).toNat
    y := (Memory.read spr (b + 1)).toNat
    code := (Memory.read spr (b + 2)).toNat
    color := (flags.extractLsb' 0 4).toNat
    flipX := flags.getLsbD 5
    flipY := flags.getLsbD 6
    sizeX := 0
    sizeY := 0
    priorityMask := 0
    enable := flags.getLsbD 7 }

/-- The 16-byte record (R29), 16-bit fields little-endian. -/
def spriteRecord16 (spr : Memory) (n : Nat) : SpriteRecord :=
  let b := 16 * n
  let flags := Memory.read spr (b + 7)
  { x := sext16 (Memory.read spr b) (Memory.read spr (b + 1))
    y := sext16 (Memory.read spr (b + 2)) (Memory.read spr (b + 3))
    code := word16 (Memory.read spr (b + 4)) (Memory.read spr (b + 5))
    color := ((Memory.read spr (b + 6)).extractLsb' 0 4).toNat
    flipX := flags.getLsbD 5
    flipY := flags.getLsbD 6
    sizeX := (flags.extractLsb' 0 2).toNat
    sizeY := (flags.extractLsb' 2 2).toNat
    priorityMask := Memory.read spr (b + 8)
    enable := flags.getLsbD 7 }

/-- The fields of record `n` (R27, R191). -/
def spriteRecord (cfg : Cfg) (spr : Memory) (n : Nat) : SpriteRecord :=
  match cfg.stride with
  | .four => spriteRecord4 spr n
  | .sixteen => spriteRecord16 spr n

end Sys2Proof.Machine
end

