-- ==== Sys2Proof/Machine/Flags.lean ====
section
/-!
DEFINITION. Machine/Flags.lean: everything that writes or shows a flag: the dirty bits (`10_state.md` R24), `FULLREF` and `PALCHG`
(R32), the register bytes of `CTRL` and `STATUS` (R31, R32).
-/

namespace Sys2Proof.Machine

/-- A tile memory write with dirty tracking (`40_memory_port_ops.md` R120): compare, then write and mark. -/
def Layer.writeTm (y : Layer) (i : Nat) (v : Byte) : Layer :=
  if Memory.read y.tm i = v then y
  else { y with tm := Memory.write y.tm i v, dirty := DirtySet.mark y.dirty i }

/-- An attribute memory write with dirty tracking (R121). -/
def Layer.writeAm (y : Layer) (i : Nat) (v : Byte) : Layer :=
  if Memory.read y.am i = v then y
  else { y with am := Memory.write y.am i v, dirty := DirtySet.mark y.dirty i }

/-- `zext_8(DIRTY[l][i])` (R126). -/
def dirtyByte (y : Layer) (i : Nat) : Byte :=
  if DirtySet.has y.dirty i then 0x01 else 0x00

/-- `CTRL.FLIP <- b`: a write that changes `FLIP` also sets `FULLREF` (`41_control_ops.md` R141). -/
def State.writeFlip (s : State) (b : Bool) : State :=
  { s with flip := b, fullref := s.fullref || (s.flip != b) }

/-- `FULLREF <- 1` (R144). -/
def State.requestRefresh (s : State) : State :=
  { s with fullref := true }

/-- `PALCHG <- 1` (R145). -/
def State.notePalette (s : State) : State :=
  { s with palchg := true }

/-- `{0b0000000, CTRL.FLIP}` (R31, R142). -/
def State.ctrlByte (s : State) : Byte :=
  0#7 ++ BitVec.ofBool s.flip

/-- `{0b000000, PALCHG, FULLREF}` (R32, R142). -/
def State.statusByte (s : State) : Byte :=
  0#6 ++ BitVec.ofBool s.palchg ++ BitVec.ofBool s.fullref

end Sys2Proof.Machine
end

