-- ==== Sys2Proof/Machine/Ops.lean ====
section
/-!
DEFINITION. Machine/Ops.lean: the named operations over memories and registers that the meanings share, and the reset event
(`70_reset_and_hazards.md` R240, R242).

Taking an exception and returning from one: the FBC "raises no synchronous exception" (`60_exceptions.md` R220), has no interrupt
(R223) and no trap entry, saved state or return (R231), so there is no such operation (log 12).
-/

namespace Sys2Proof.Machine

/-- The response of the command (`rsp <- v`, R12); `none` for a command that sets none (R96). -/
def State.respond (s : State) (r : Option Byte) : State :=
  { s with rsp := r }

/-- Changes the state of one layer. -/
def State.updLayer (s : State) (l : Nat) (f : Layer → Layer) : State :=
  { s with layers := s.layers.modify l f }

/-- `TWR`'s write (R120, R128); dropped when the layer does not exist. -/
def State.writeTile (s : State) (sel : BitVec 4) (off : BitVec 16) (v : Byte) : State :=
  match s.layerAt sel.toNat with
  | none => s
  | some (c, _) => s.updLayer sel.toNat (fun y => y.writeTm (tileIndex c off) v)

/-- `AWR`'s write (R121, R128); dropped when the layer does not exist. -/
def State.writeAttr (s : State) (sel : BitVec 4) (off : BitVec 16) (v : Byte) : State :=
  match s.layerAt sel.toNat with
  | none => s
  | some (c, _) => s.updLayer sel.toNat (fun y => y.writeAm (tileIndex c off) v)

/-- A read of one tile's entry in a store of the layer: `FILL` when the layer does not exist (R67, R128). -/
def State.readLayer (s : State) (sel : BitVec 4) (off : BitVec 16) (f : Layer → Nat → Byte) : Byte :=
  match s.layerAt sel.toNat with
  | none => s.cfg.fill
  | some (c, y) => f y (tileIndex c off)

/-- `SPR[off mod SPR_BYTES] <- v` (R124). -/
def State.writeSprite (s : State) (off : BitVec 16) (v : Byte) : State :=
  { s with spr := Memory.write s.spr (spriteIndex s.cfg off) v }

/-- `SPR[off mod SPR_BYTES]` (R125). -/
def State.readSprite (s : State) (off : BitVec 16) : Byte :=
  Memory.read s.spr (spriteIndex s.cfg off)

/-- `FB[y][x]`, or `FILL` outside the screen (R127). -/
def State.readPixel (s : State) (x y : Nat) : Byte :=
  if x < s.cfg.screenW ∧ y < s.cfg.screenH then Memory.read s.fb (pixelKey s.cfg x y) else s.cfg.fill

/-- What the presentation collaborator reads at pixel `(x, y)` between commands: "the same value a `PXRD` would" (R90). -/
def State.presented (s : State) (x y : Nat) : Byte :=
  s.readPixel x y

/-- A write of a selected register (R141). -/
def State.writeReg (s : State) (r : Reg) (v : Byte) : State :=
  match r with
  | .ctrl => s.writeFlip (v.getLsbD 0)
  | .status => s
  | .scxl l => s.updLayer l (fun y => { y with scx := setLowByte y.scx v })
  | .scxh l => s.updLayer l (fun y => { y with scx := setHighByte y.scx v })
  | .scyl l => s.updLayer l (fun y => { y with scy := setLowByte y.scy v })
  | .scyh l => s.updLayer l (fun y => { y with scy := setHighByte y.scy v })

/-- A byte of one layer's state; `FILL` when the state lacks the layer (log 14). -/
def State.layerByte (s : State) (l : Nat) (f : Layer → Byte) : Byte :=
  match s.layers[l]? with
  | some y => f y
  | none => s.cfg.fill

/-- A read of a selected register (R142). -/
def State.readReg (s : State) (r : Reg) : Byte :=
  match r with
  | .ctrl => s.ctrlByte
  | .status => s.statusByte
  | .scxl l => s.layerByte l (fun y => lowByte y.scx)
  | .scxh l => s.layerByte l (fun y => highByte y.scx)
  | .scyl l => s.layerByte l (fun y => lowByte y.scy)
  | .scyh l => s.layerByte l (fun y => highByte y.scy)

/-- `RWR`'s write: dropped when the register is unmapped (R141, R67). -/
def State.writeRegister (s : State) (sel : BitVec 4) (off : BitVec 16) (v : Byte) : State :=
  match selectReg s.cfg sel off with
  | some r => s.writeReg r v
  | none => s

/-- `RRD`'s read: `FILL` when the register is unmapped (R142, R67). -/
def State.readRegister (s : State) (sel : BitVec 4) (off : BitVec 16) : Byte :=
  match selectReg s.cfg sel off with
  | some r => s.readReg r
  | none => s.cfg.fill

/-- A layer right after reset when the stores hold `content` (R38): every dirty bit 1, scroll 0. -/
def Layer.afterReset (content : Config.Store → Nat → Byte) (l : Nat) (c : LayerCfg) : Layer where
  tm := Memory.tabulate c.nt (content (.tm l))
  am := Memory.tabulate c.nt (content (.am l))
  dirty := DirtySet.full c.nt
  scx := 0
  scy := 0
  bmp := Memory.tabulate c.bmpSize (content (.bmp l))

/-- The layers right after reset, from layer number `l` on. -/
def layersAfterReset (content : Config.Store → Nat → Byte) : Nat → List LayerCfg → List Layer
  | _, [] => []
  | l, c :: cs => Layer.afterReset content l c :: layersAfterReset content (l + 1) cs

/-- The state after reset (R38, R240) of a machine of configuration `b` whose stores hold `content`: "a model must quantify over the
content" (D28). Inputs waiting at the port stay; no response is present. -/
def State.afterReset (b : BuiltCfg) (content : Config.Store → Nat → Byte) (port : List PortInput) (powerUps : Nat) : State where
  built := b
  layers := layersAfterReset content 0 b.cfg.layers
  spr := Memory.tabulate b.cfg.sprBytes (content .spr)
  flip := false
  fullref := false
  palchg := false
  fb := Memory.tabulate b.cfg.screenSize (content .fb)
  pri := Memory.tabulate b.cfg.screenSize (content .pri)
  port := port
  rsp := none
  powerUps := powerUps

/-- Machine construction (R9, R222): a well-formed configuration gives a machine in its reset state, the stores holding any content
(R38), nothing at the port; an ill-formed one is refused with the checks that fail, "by the model's constructor", and no state exists. -/
def State.build (cfg : Cfg) (content : Config.Store → Nat → Byte) : Host.Outcome State Fault Refusal :=
  if h : cfg.wf = true then .next (State.afterReset ⟨cfg, h⟩ content [] 0) else .refused (.illFormedConfig cfg.errors)

/-- The byte a store holds at an index; the unlisted byte in a layer the state lacks (log 14). -/
def State.held (s : State) (store : Config.Store) (index : Nat) : Byte :=
  let inLayer (l : Nat) (f : Layer → Memory) : Byte := ((s.layers[l]?).map (fun y => Memory.read (f y) index)).getD Memory.unlisted
  match store with
  | .tm l => inLayer l Layer.tm
  | .am l => inLayer l Layer.am
  | .bmp l => inLayer l Layer.bmp
  | .spr => Memory.read s.spr index
  | .fb => Memory.read s.fb index
  | .pri => Memory.read s.pri index

/-- What the stores hold after the next reset event (R38, R242): free bytes, each of which may depend on the byte held (log 4). -/
def State.powerUpContent (s : State) (store : Config.Store) (index : Nat) : Byte :=
  Config.powerUpByte s.powerUps store index (s.held store index)

/-- The reset event on a running machine (R240, R242): the state of R38, the memories holding free bytes. DESIGN CHOICE (log 4): such a
byte depends on the count of reset events, the store, the index and the byte held there, and on nothing else. -/
def State.takeReset (s : State) : State :=
  State.afterReset s.built s.powerUpContent s.port (s.powerUps + 1)

end Sys2Proof.Machine
end

