-- ==== Sys2Proof/Machine/Tiles.lean ====
section
/-!
DEFINITION. Machine/Tiles.lean: phases 1 to 4 of `COMP` (`42_tile_compositor.md` R161 to R171): full invalidate, redraw of dirty
tiles, clear, layer copy with scroll, transparency and priority.
-/

namespace Sys2Proof.Machine

/-- Runs a per-layer operation on every layer, `for l in 0 .. NLAYERS-1` (R160). -/
def forLayers (f : LayerCfg → Layer → Layer) : List LayerCfg → List Layer → List Layer
  | c :: cs, y :: ys => f c y :: forLayers f cs ys
  | _, ys => ys

/-- `Phase1_Invalidate` (R161). -/
def State.invalidate (s : State) : State :=
  { s with
    layers :=
      if s.fullref || s.palchg then forLayers (fun c y => { y with dirty := DirtySet.full c.nt }) s.cfg.layers s.layers
      else s.layers
    fullref := false
    palchg := false }

/-- `TileCode(l, t, a) = (t + (a[5:4] << 8)) mod NPAT[l]` (R164). -/
def tileCode (c : LayerCfg) (t a : Byte) : Nat :=
  (t.toNat + attrBank a <<< 8) % c.npat

/-- Position and flip of a tile (R165). -/
structure Place where
  col : Nat
  row : Nat
  fx : Bool
  fy : Bool
deriving DecidableEq, Repr

/-- `TilePlace(l, i, a)` under a value of `CTRL.FLIP` (R165). -/
def tilePlace (c : LayerCfg) (flip : Bool) (i : Nat) (a : Byte) : Place :=
  let col := i % c.mapW
  let row := i / c.mapW
  if flip then ⟨c.mapW - 1 - col, c.mapH - 1 - row, !attrFlipX a, !attrFlipY a⟩
  else ⟨col, row, attrFlipX a, attrFlipY a⟩

/-- The pen `RedrawTile` writes at column `dx`, row `dy` of the tile's rectangle (R163). -/
def tilePen (c : LayerCfg) (t a : Byte) (fx fy : Bool) (dx dy : Nat) : Byte :=
  let ox := if fx then c.tileW - 1 - dx else dx
  let oy := if fy then c.tileH - 1 - dy else dy
  c.tpenAt (attrColor a) (c.tgfxAt (tileCode c t a) oy ox)

/-- The key in `BMP[l]` of column `dx`, row `dy` of the rectangle at `(col, row)` (R163, R165). -/
def tileKey (c : LayerCfg) (col row dx dy : Nat) : Nat :=
  (row * c.tileH + dy) * c.bw + (col * c.tileW + dx)

/-- The pixels of a `w` by `h` rectangle, row after row: `for dy in 0 .. h-1: for dx in 0 .. w-1`. -/
def pixels (w h : Nat) : List (Nat × Nat) :=
  (List.range h).flatMap (fun dy => (List.range w).map (fun dx => (dx, dy)))

/-- The bitmap writes of `RedrawTile(l, i)` (R163). -/
def tileCells (c : LayerCfg) (flip : Bool) (y : Layer) (i : Nat) : List Host.Cell :=
  let t := Memory.read y.tm i
  let a := Memory.read y.am i
  let p := tilePlace c flip i a
  (pixels c.tileW c.tileH).map (fun d => (tileKey c p.col p.row d.1 d.2, tilePen c t a p.fx p.fy d.1 d.2))

/-- `RedrawTile(l, i)`: draw the rectangle, then clear the dirty bit (R163). -/
def redrawTile (c : LayerCfg) (flip : Bool) (y : Layer) (i : Nat) : Layer :=
  { y with bmp := Memory.writeMany y.bmp (tileCells c flip y i), dirty := DirtySet.clear y.dirty i }

/-- Phase 2 on one layer: `for i in 0 .. NT[l]-1: if DIRTY[l][i] = 1: RedrawTile(l, i)` (R160, R162). -/
def redrawLayer (flip : Bool) (c : LayerCfg) (y : Layer) : Layer :=
  (List.range c.nt).foldl (fun y i => if DirtySet.has y.dirty i then redrawTile c flip y i else y) y

/-- Phase 2 (R162). -/
def State.redraw (s : State) : State :=
  { s with layers := forLayers (redrawLayer s.flip) s.cfg.layers s.layers }

/-- `Phase3_Clear` (R166). -/
def State.clearScreen (s : State) : State :=
  { s with
    fb := Memory.tabulate s.cfg.screenSize (fun _ => s.cfg.bgPen)
    pri := Memory.tabulate s.cfg.screenSize (fun _ => 0) }

/-- One axis of `LayerSource` (R169): `pos` the screen position, `size` the bitmap size, `screen` the screen size. -/
def sourceAxis (flip : Bool) (pos : Nat) (scroll : BitVec 16) (size screen : Nat) : Nat :=
  if flip then (((pos : Int) - scroll.toNat + size - screen) % size).toNat
  else (pos + scroll.toNat) % size

/-- `LayerSource(l, x, y)`: column and row of the layer bitmap (R169). -/
def layerSource (cfg : Cfg) (flip : Bool) (c : LayerCfg) (y : Layer) (px py : Nat) : Nat × Nat :=
  (sourceAxis flip px y.scx c.bw cfg.screenW, sourceAxis flip py y.scy c.bh cfg.screenH)

/-- The pen of layer `l` at screen pixel `(px, py)`: `BMP[l][v][u]` (R167). -/
def layerPen (cfg : Cfg) (flip : Bool) (c : LayerCfg) (y : Layer) (px py : Nat) : Byte :=
  let uv := layerSource cfg flip c y px py
  Memory.read y.bmp (uv.2 * c.bw + uv.1)

/-- A transparency test: `none`, or a pen other than the transparent one (R170, R198). -/
def opaquePen (transparent : Option Byte) (pen : Byte) : Bool :=
  match transparent with
  | none => true
  | some t => decide (pen ≠ t)

/-- The framebuffer and the priority buffer while a frame is made. -/
structure Screen where
  fb : Memory
  pri : Memory
deriving DecidableEq, Repr

/-- `CopyLayer(l)` (R167, R170, R171): `for y in 0 .. SCREEN_H-1: for x in 0 .. SCREEN_W-1`, pixel after pixel. -/
def copyLayer (cfg : Cfg) (flip : Bool) (c : LayerCfg) (y : Layer) (m : Screen) : Screen where
  fb := Memory.tabulate cfg.screenSize (fun k =>
    let p := layerPen cfg flip c y (k % cfg.screenW) (k / cfg.screenW)
    if opaquePen c.transp p then p else Memory.read m.fb k)
  pri := Memory.tabulate cfg.screenSize (fun k =>
    let p := layerPen cfg flip c y (k % cfg.screenW) (k / cfg.screenW)
    if opaquePen c.transp p then Memory.read m.pri k ||| c.lpri else Memory.read m.pri k)

/-- Phase 4: layers copied in ascending number, back to front (R168). -/
def copyLayers (cfg : Cfg) (flip : Bool) : List LayerCfg → List Layer → Screen → Screen
  | c :: cs, y :: ys, m => copyLayers cfg flip cs ys (copyLayer cfg flip c y m)
  | _, _, m => m

/-- Phase 4 on the machine (R160, R168). -/
def State.copyTiles (s : State) : State :=
  let m := copyLayers s.cfg s.flip s.cfg.layers s.layers ⟨s.fb, s.pri⟩
  { s with fb := m.fb, pri := m.pri }

end Sys2Proof.Machine
end

