-- ==== Sys2Proof/Machine/Sprites.lean ====
section
/-!
DEFINITION. Machine/Sprites.lean: phase 5 of `COMP`, the sprite pass (`43_sprite_compositor.md` R190 to R201).
-/

namespace Sys2Proof.Machine

/-- Where and how a sprite is drawn (R193). -/
structure SpritePlace where
  sx : Int
  sy : Int
  fx : Bool
  fy : Bool
deriving DecidableEq, Repr

/-- `SpritePlace(x, y, w, h, flipX, flipY)` under a value of `CTRL.FLIP` (R193). -/
def spritePlace (cfg : Cfg) (flip : Bool) (x y : Int) (w h : Nat) (flipX flipY : Bool) : SpritePlace :=
  if flip then ⟨(cfg.screenW - w : Int) - x, (cfg.screenH - h : Int) - y, !flipX, !flipY⟩
  else ⟨x, y, flipX, flipY⟩

/-- `M`: "the bits the size uses", the OR of the table's entries over the sprite's cells (R195). -/
def layoutMask (cfg : Cfg) (nx ny : Nat) : Nat :=
  (pixels nx ny).foldl (fun m d => m ||| cfg.layoutAt d.2 d.1) 0

/-- `code & ~m`: "`code` with the bits of `m` cleared" (R11). -/
def clearBits (code m : Nat) : Nat :=
  code ^^^ (code &&& m)

/-- `CellCode(code, nx, ny, cx, cy)` (R195). -/
def cellCode (cfg : Cfg) (code nx ny cx cy : Nat) : Nat :=
  (clearBits code (layoutMask cfg nx ny) ||| cfg.layoutAt cy cx) % cfg.nspat

/-- `SpriteAllowed(px, py, pmask)` on the priority byte of the pixel (R199). -/
def spriteAllowed (pri pmask : Byte) : Bool :=
  decide (pri &&& pmask = 0)

/-- What is drawn: the sprite's cells, code, colour and mask (R191, R192). -/
structure SpriteImage where
  nx : Nat
  ny : Nat
  code : Nat
  color : Nat
  pmask : Byte
deriving DecidableEq, Repr

/-- The pen of the sprite at column `dx`, row `dy` of its picture (R194). -/
def spritePen (cfg : Cfg) (g : SpriteImage) (fx fy : Bool) (dx dy : Nat) : Byte :=
  let ox := if fx then g.nx * cfg.cellW - 1 - dx else dx
  let oy := if fy then g.ny * cfg.cellH - 1 - dy else dy
  let c := cellCode cfg g.code g.nx g.ny (ox / cfg.cellW) (oy / cfg.cellH)
  cfg.spenAt g.color (cfg.sgfxAt c (oy % cfg.cellH) (ox % cfg.cellW))

/-- The framebuffer write of one sprite pixel: `none` when it is clipped (R197), transparent (R198) or suppressed (R199). -/
def spriteCell (cfg : Cfg) (pri : Memory) (p : SpritePlace) (g : SpriteImage) (d : Nat × Nat) : Option Host.Cell :=
  let px := p.sx + d.1
  let py := p.sy + d.2
  if 0 ≤ px ∧ px < cfg.screenW ∧ 0 ≤ py ∧ py < cfg.screenH then
    let k := pixelKey cfg px.toNat py.toNat
    let pen := spritePen cfg g p.fx p.fy d.1 d.2
    if opaquePen cfg.sprTransp pen && spriteAllowed (Memory.read pri k) g.pmask then some (k, pen) else none
  else none

/-- `DrawSpriteAt(sx, sy, fx, fy, nx, ny, code, color, pmask)` (R194); writes `FB` only (R200). -/
def drawSpriteAt (cfg : Cfg) (pri : Memory) (p : SpritePlace) (g : SpriteImage) (fb : Memory) : Memory :=
  Memory.writeMany fb ((pixels (g.nx * cfg.cellW) (g.ny * cfg.cellH)).filterMap (spriteCell cfg pri p g))

/-- The place of the second draw, `((sx + 128) mod 256, (sy + 128) mod 256)` (R201). -/
def secondPlace (p : SpritePlace) : SpritePlace :=
  { p with sx := (p.sx + 128) % 256, sy := (p.sy + 128) % 256 }

/-- The picture of a record: `nx = 1 << sizeX`, `ny = 1 << sizeY` (R192). -/
def spriteImage (r : SpriteRecord) : SpriteImage :=
  ⟨1 <<< r.sizeX, 1 <<< r.sizeY, r.code, r.color, r.priorityMask⟩

/-- `DrawSpriteRecord(n)` (R191), with the second draw of R201. -/
def drawSpriteRecord (cfg : Cfg) (flip : Bool) (spr pri : Memory) (n : Nat) (fb : Memory) : Memory :=
  let r := spriteRecord cfg spr n
  let g := spriteImage r
  let p := spritePlace cfg flip r.x r.y (g.nx * cfg.cellW) (g.ny * cfg.cellH) r.flipX r.flipY
  if r.enable then
    let fb1 := drawSpriteAt cfg pri p g fb
    if cfg.doubleDraw.elem n then drawSpriteAt cfg pri (secondPlace p) g fb1 else fb1
  else fb

/-- The sprite list from the last record to the first (R190). -/
def drawSprites (cfg : Cfg) (flip : Bool) (spr pri : Memory) : Nat → Memory → Memory
  | 0, fb => fb
  | n + 1, fb => drawSprites cfg flip spr pri n (drawSpriteRecord cfg flip spr pri n fb)

/-- Phase 5 (R190, R200). -/
def State.spritePass (s : State) : State :=
  { s with fb := drawSprites s.cfg s.flip s.spr s.pri s.cfg.nspr s.fb }

end Sys2Proof.Machine
end

