-- ==== Sys2Proof/Machine/Composite.lean ====
section
/-!
DEFINITION. Machine/Composite.lean: the meaning of `COMP` (`42_tile_compositor.md` R160), its five phases in order in one step
(`20_memory.md` R71).
-/

namespace Sys2Proof.Machine

/-- The tile half of a frame, phases 1 to 4 (R160). -/
def State.compositeTiles (s : State) : State :=
  s.invalidate.redraw.clearScreen.copyTiles

/-- A whole frame: phases 1 to 5 (R160). -/
def State.composite (s : State) : State :=
  s.compositeTiles.spritePass

/-- `COMP` (R160). -/
def execComp (s : State) : Host.Outcome State Fault Refusal :=
  .next (s.composite.respond none)

end Sys2Proof.Machine
end

