-- ==== Sys2Proof/Machine/Control.lean ====
section
/-!
DEFINITION. Machine/Control.lean: the meanings of the control commands (`41_control_ops.md` R140 to R145).
-/

namespace Sys2Proof.Machine

/-- `NOP` (R140). -/
def execNop (s : State) : Host.Outcome State Fault Refusal :=
  .next (s.respond none)

/-- `RWR l, r, v` (R141, R143). -/
def execRwr (sel : BitVec 4) (off : BitVec 16) (data : Byte) (s : State) : Host.Outcome State Fault Refusal :=
  .next ((s.writeRegister sel off data).respond none)

/-- `RRD l, r` (R142, R143). -/
def execRrd (sel : BitVec 4) (off : BitVec 16) (s : State) : Host.Outcome State Fault Refusal :=
  .next (s.respond (some (s.readRegister sel off)))

/-- `FREF` (R144). -/
def execFref (s : State) : Host.Outcome State Fault Refusal :=
  .next (s.requestRefresh.respond none)

/-- `PCHG` (R145). -/
def execPchg (s : State) : Host.Outcome State Fault Refusal :=
  .next (s.notePalette.respond none)

end Sys2Proof.Machine
end

