-- ==== Sys2Proof/Machine/MemoryPort.lean ====
section
/-!
DEFINITION. Machine/MemoryPort.lean: the meanings of the memory port commands (`40_memory_port_ops.md` R120 to R127).
-/

namespace Sys2Proof.Machine

/-- `TWR l, i, v` (R120). -/
def execTwr (sel : BitVec 4) (off : BitVec 16) (data : Byte) (s : State) : Host.Outcome State Fault Refusal :=
  .next ((s.writeTile sel off data).respond none)

/-- `AWR l, i, v` (R121). -/
def execAwr (sel : BitVec 4) (off : BitVec 16) (data : Byte) (s : State) : Host.Outcome State Fault Refusal :=
  .next ((s.writeAttr sel off data).respond none)

/-- `TRD l, i` (R122). -/
def execTrd (sel : BitVec 4) (off : BitVec 16) (s : State) : Host.Outcome State Fault Refusal :=
  .next (s.respond (some (s.readLayer sel off (fun y i => Memory.read y.tm i))))

/-- `ARD l, i` (R123). -/
def execArd (sel : BitVec 4) (off : BitVec 16) (s : State) : Host.Outcome State Fault Refusal :=
  .next (s.respond (some (s.readLayer sel off (fun y i => Memory.read y.am i))))

/-- `DRD l, i` (R126). -/
def execDrd (sel : BitVec 4) (off : BitVec 16) (s : State) : Host.Outcome State Fault Refusal :=
  .next (s.respond (some (s.readLayer sel off dirtyByte)))

/-- `SWR k, v` (R124). -/
def execSwr (off : BitVec 16) (data : Byte) (s : State) : Host.Outcome State Fault Refusal :=
  .next ((s.writeSprite off data).respond none)

/-- `SRD k` (R125). -/
def execSrd (off : BitVec 16) (s : State) : Host.Outcome State Fault Refusal :=
  .next (s.respond (some (s.readSprite off)))

/-- `PXRD x, y` (R127). -/
def execPxrd (x y : Byte) (s : State) : Host.Outcome State Fault Refusal :=
  .next (s.respond (some (s.readPixel x.toNat y.toNat)))

end Sys2Proof.Machine
end

