-- ==== Sys2Proof/Machine/Reserved.lean ====
section
/-!
DEFINITION. Machine/Reserved.lean: the reserved opcodes, "treated as an access to an unmapped range: it changes no state and its
response is `FILL`" (`30_encoding.md` R95, R96; log 7).
-/

namespace Sys2Proof.Machine

/-- Reserved opcode `0xE` (R95). -/
def execRsvdE (s : State) : Host.Outcome State Fault Refusal :=
  .next (s.respond (some s.cfg.fill))

/-- Reserved opcode `0xF` (R95). -/
def execRsvdF (s : State) : Host.Outcome State Fault Refusal :=
  .next (s.respond (some s.cfg.fill))

end Sys2Proof.Machine
end

