-- ==== Sys2Proof/Machine/Dispatch.lean ====
section
/-!
DEFINITION. Machine/Dispatch.lean: one arm per command (`30_encoding.md` R93, R95).
-/

namespace Sys2Proof.Machine

def exec (i : Instr) (s : State) : Host.Outcome State Fault Refusal :=
  match i with
  | .nop => Sys2Proof.Machine.execNop s
  | .twr sel off data => Sys2Proof.Machine.execTwr sel off data s
  | .awr sel off data => Sys2Proof.Machine.execAwr sel off data s
  | .trd sel off => Sys2Proof.Machine.execTrd sel off s
  | .ard sel off => Sys2Proof.Machine.execArd sel off s
  | .swr off data => Sys2Proof.Machine.execSwr off data s
  | .srd off => Sys2Proof.Machine.execSrd off s
  | .rwr sel off data => Sys2Proof.Machine.execRwr sel off data s
  | .rrd sel off => Sys2Proof.Machine.execRrd sel off s
  | .fref => Sys2Proof.Machine.execFref s
  | .pchg => Sys2Proof.Machine.execPchg s
  | .comp => Sys2Proof.Machine.execComp s
  | .pxrd x y => Sys2Proof.Machine.execPxrd x y s
  | .drd sel off => Sys2Proof.Machine.execDrd sel off s
  | .rsvdE => Sys2Proof.Machine.execRsvdE s
  | .rsvdF => Sys2Proof.Machine.execRsvdF s

end Sys2Proof.Machine
end

