-- ==== Sys2Proof/Decode.lean ====
section
/-!
DEFINITION. Decode.lean: the command word's fields, the decoder and the encoder (`30_encoding.md` R91 to R95, R97, R99), and the
opcode table's rows (R93).
-/

namespace Sys2Proof

/-- `op = cmd[31:28]` (R92, R93). -/
def opField (w : CmdWord) : BitVec 4 := w.extractLsb' 28 4

/-- `sel = cmd[27:24]` (R92). -/
def selField (w : CmdWord) : BitVec 4 := w.extractLsb' 24 4

/-- `off = cmd[23:8]` (R92). -/
def offField (w : CmdWord) : BitVec 16 := w.extractLsb' 8 16

/-- `data = cmd[7:0]` (R92). -/
def dataField (w : CmdWord) : Byte := w.extractLsb' 0 8

/-- `x = off[7:0]` of format P (R92, R99). -/
def pixelX (off : BitVec 16) : Byte := off.extractLsb' 0 8

/-- `y = off[15:8]` of format P (R92, R99). -/
def pixelY (off : BitVec 16) : Byte := off.extractLsb' 8 8

/-- The decoder is total (R94): each word is one of the 14 commands or a reserved opcode. -/
def decode (w : CmdWord) : Instr :=
  match (opField w).toNat with
  | 0x0 => .nop
  | 0x1 => .twr (selField w) (offField w) (dataField w)
  | 0x2 => .awr (selField w) (offField w) (dataField w)
  | 0x3 => .trd (selField w) (offField w)
  | 0x4 => .ard (selField w) (offField w)
  | 0x5 => .swr (offField w) (dataField w)
  | 0x6 => .srd (offField w)
  | 0x7 => .rwr (selField w) (offField w) (dataField w)
  | 0x8 => .rrd (selField w) (offField w)
  | 0x9 => .fref
  | 0xA => .pchg
  | 0xB => .comp
  | 0xC => .pxrd (pixelX (offField w)) (pixelY (offField w))
  | 0xD => .drd (selField w) (offField w)
  | 0xE => .rsvdE
  | _ => .rsvdF

/-- Why bits offered to the decoder are no command word. -/
inductive DecodeError where
  /-- More than 32 bits: "There is one length ... and no multi-word command" (R91). -/
  | tooManyBits
deriving DecidableEq, Repr

/-- The decoder on `nbits` bits given as a number, bit 0 the least significant; bits the number does not give are 0 (log 10). -/
def decodeBits (nbits w : Nat) : Except DecodeError Instr :=
  if nbits ≤ 32 then .ok (decode (BitVec.ofNat 32 (w % 2 ^ nbits))) else .error .tooManyBits

/-- The command the decoder reads from an opcode-table row's bits, `none` where it refuses them. -/
def decodeTableWord (nbits w : Nat) : Option Instr :=
  match decodeBits nbits w with
  | .ok i => some i
  | .error _ => none

/-- Joins the four fields of R92. -/
def joinFields (op sel : BitVec 4) (off : BitVec 16) (data : Byte) : CmdWord :=
  op ++ sel ++ off ++ data

/-- The encoder: the fields of R92 with the opcode of R93; "The assembler writes 0 in every ignored field" (R97), here the fields that
the command's format does not use. `RWR` and `RRD` of `CTRL` or `STATUS` keep `l` in the word: R97's table has `l << 24` for every
register, while R94 counts `sel` as ignored for these two (DESIGN CHOICE, log 20). -/
def encode : Instr → CmdWord
  | .nop => joinFields 0x0 0 0 0
  | .twr sel off data => joinFields 0x1 sel off data
  | .awr sel off data => joinFields 0x2 sel off data
  | .trd sel off => joinFields 0x3 sel off 0
  | .ard sel off => joinFields 0x4 sel off 0
  | .swr off data => joinFields 0x5 0 off data
  | .srd off => joinFields 0x6 0 off 0
  | .rwr sel off data => joinFields 0x7 sel off data
  | .rrd sel off => joinFields 0x8 sel off 0
  | .fref => joinFields 0x9 0 0 0
  | .pchg => joinFields 0xA 0 0 0
  | .comp => joinFields 0xB 0 0 0
  | .pxrd x y => joinFields 0xC 0 (y ++ x) 0
  | .drd sel off => joinFields 0xD sel off 0
  | .rsvdE => joinFields 0xE 0 0 0
  | .rsvdF => joinFields 0xF 0 0 0

/-- The sub-formats of R92, and the reserved rows of R95. -/
inductive Format where
  | n | lw | lr | sw | sr | p | reserved
deriving DecidableEq, Repr

/-- One row of the opcode map (R93). -/
structure OpcodeRow where
  mnemonic : String
  format : Format
  pattern : CmdWord
  mask : CmdWord
deriving DecidableEq, Repr

/-- The opcode map of R93. -/
def opcodeTable : List OpcodeRow :=
  [⟨"NOP", .n, 0x00000000, 0xF0000000⟩, ⟨"TWR", .lw, 0x10000000, 0xF0000000⟩,
   ⟨"AWR", .lw, 0x20000000, 0xF0000000⟩, ⟨"TRD", .lr, 0x30000000, 0xF0000000⟩,
   ⟨"ARD", .lr, 0x40000000, 0xF0000000⟩, ⟨"SWR", .sw, 0x50000000, 0xF0000000⟩,
   ⟨"SRD", .sr, 0x60000000, 0xF0000000⟩, ⟨"RWR", .lw, 0x70000000, 0xF0000000⟩,
   ⟨"RRD", .lr, 0x80000000, 0xF0000000⟩, ⟨"FREF", .n, 0x90000000, 0xF0000000⟩,
   ⟨"PCHG", .n, 0xA0000000, 0xF0000000⟩, ⟨"COMP", .n, 0xB0000000, 0xF0000000⟩,
   ⟨"PXRD", .p, 0xC0000000, 0xF0000000⟩, ⟨"DRD", .lr, 0xD0000000, 0xF0000000⟩,
   ⟨"RSVD_E", .reserved, 0xE0000000, 0xF0000000⟩, ⟨"RSVD_F", .reserved, 0xF0000000, 0xF0000000⟩]

/-- A word matches a row when the masked word is the row's pattern (R93). -/
def OpcodeRow.accepts (r : OpcodeRow) (w : CmdWord) : Bool :=
  decide (w &&& r.mask = r.pattern)

/-- The mnemonic of a command, as R93 and R95 name the rows. -/
def Instr.mnemonic : Instr → String
  | .nop => "NOP"
  | .twr _ _ _ => "TWR"
  | .awr _ _ _ => "AWR"
  | .trd _ _ => "TRD"
  | .ard _ _ => "ARD"
  | .swr _ _ => "SWR"
  | .srd _ => "SRD"
  | .rwr _ _ _ => "RWR"
  | .rrd _ _ => "RRD"
  | .fref => "FREF"
  | .pchg => "PCHG"
  | .comp => "COMP"
  | .pxrd _ _ => "PXRD"
  | .drd _ _ => "DRD"
  | .rsvdE => "RSVD_E"
  | .rsvdF => "RSVD_F"

end Sys2Proof
end

