-- ==== Sys2Proof/Machine/Port.lean ====
section
/-!
DEFINITION. Machine/Port.lean: taking the next input of the command port (`30_encoding.md` R90; `20_memory.md` R70;
`10_state.md` R21: commands are pushed to the FBC, it fetches nothing).
-/

namespace Sys2Proof.Machine

/-- What stands first at the port. -/
inductive Taken where
  /-- Nothing is issued. -/
  | idle
  /-- The reset signal, and the machine with it taken from the port. -/
  | rst (s : State)
  /-- A decoded command, and the machine with it taken from the port. -/
  | command (i : Instr) (s : State)

/-- Takes the oldest input of the port (R70: one total order). -/
def State.take (s : State) : Taken :=
  match s.port with
  | [] => .idle
  | .rst :: rest => .rst { s with port := rest }
  | .command w :: rest => .command (decode w) { s with port := rest }

/-- Puts an input first at the port. -/
def State.issueFirst (s : State) (p : PortInput) : State :=
  { s with port := p :: s.port }

/-- The word of an opcode-table row's bits; the bits above `nbits` are 0 (log 10). -/
def tableWord (nbits w : Nat) : CmdWord :=
  BitVec.ofNat 32 (w % 2 ^ nbits)

end Sys2Proof.Machine
end

