-- ==== Sys2Proof/Machine/Step.lean ====
section
/-!
DEFINITION. Machine/Step.lean: one step of the machine (`00_scope.md` R13: "One command is one step").
-/

namespace Sys2Proof.Machine

/-- One step, of a machine whose configuration is well formed by its type (R9, R222; log 9). With nothing at the port the FBC is idle and
nothing changes (R230, R240; log 5); `rst` is the reset event (R240, R242); a command is decoded and executed completely (R13, R70). -/
def step (s : State) : Host.Outcome State Fault Refusal :=
  match s.take with
  | .idle => .next s
  | .rst t => .next t.takeReset
  | .command i t => exec i t

/-- The state in which the next step takes and runs the command whose bits are `w` (log 5: the host issues it). -/
def State.withFetchWord (s : State) (nbits w : Nat) : State :=
  s.issueFirst (.command (tableWord nbits w))

end Sys2Proof.Machine
end

