-- ==== Sys2Proof/Machine/Assembler.lean ====
section
/-!
DEFINITION. Machine/Assembler.lean: the assembler's text and the pseudo-commands (`30_encoding.md` R97, R98), as functions from a
line's characters to commands; `encode` (`Decode.lean`) gives their words. What R97 leaves open of the text (blanks, the case of a
hexadecimal digit) is log 15.
-/

namespace Sys2Proof

/-- The pseudo-commands (R98). -/
inductive Pseudo where
  /-- `SETFLIP b`. -/
  | setflip (b : Bool)
  /-- `SCROLLX l, v`. -/
  | scrollx (l : BitVec 4) (v : BitVec 16)
  /-- `SCROLLY l, v`. -/
  | scrolly (l : BitVec 4) (v : BitVec 16)
  /-- `TILE l, i, t, a`. -/
  | tile (l : BitVec 4) (i : BitVec 16) (t a : Byte)
  /-- `SPRITE4 n, x, y, code, attr` (needs `SPR_STRIDE = 4`). -/
  | sprite4 (n : Nat) (x y code attr : Byte)
  /-- `SPRITE16 n, x, y, code, color, flags, pmask` (needs `SPR_STRIDE = 16`); `x`, `y` signed, "taken `mod 65536`". -/
  | sprite16 (n : Nat) (x y : Int) (code : BitVec 16) (color flags pmask : Byte)
deriving DecidableEq, Repr

/-- The two bytes of a scroll register, low byte first (R98). -/
def scrollWrites (l : BitVec 4) (low high v : BitVec 16) : List Instr :=
  [.rwr l low (v.extractLsb' 0 8), .rwr l high (v.extractLsb' 8 8)]

/-- Writes of consecutive sprite RAM bytes from `base` on. -/
def spriteWrites (base : Nat) : List Byte → List Instr
  | [] => []
  | v :: vs => .swr (BitVec.ofNat 16 base) v :: spriteWrites (base + 1) vs

/-- "Each expands to the commands shown, in the order shown" (R98). -/
def Pseudo.expand : Pseudo → List Instr
  | .setflip b => [.rwr 0 0 (if b then 1 else 0)]
  | .scrollx l v => scrollWrites l 2 3 v
  | .scrolly l v => scrollWrites l 4 5 v
  | .tile l i t a => [.twr l i t, .awr l i a]
  | .sprite4 n x y code attr => spriteWrites (4 * n) [x, y, code, attr]
  | .sprite16 n x y code color flags pmask =>
    let xw := BitVec.ofInt 16 x
    let yw := BitVec.ofInt 16 y
    spriteWrites (16 * n) [xw.extractLsb' 0 8, xw.extractLsb' 8 8, yw.extractLsb' 0 8, yw.extractLsb' 8 8,
      code.extractLsb' 0 8, code.extractLsb' 8 8, color, flags, pmask]

/-- Why a line is no command (R97, R98). -/
inductive AsmError where
  /-- No mnemonic of R97 or R98. -/
  | unknownMnemonic
  /-- An operand that is no number and no register name, or a wrong number of operands. -/
  | badOperands
  /-- A number outside the range R97 or R98 gives its operand. -/
  | outOfRange
  /-- `SPRITE4` or `SPRITE16` on a machine of the other `SPR_STRIDE` (R98). -/
  | wrongStride
deriving DecidableEq, Repr

/-- The value of a digit, decimal or hexadecimal. -/
def digitOf (base : Nat) (c : Char) : Option Nat :=
  let n := c.toNat
  let d := if 48 ≤ n ∧ n ≤ 57 then some (n - 48) else if 65 ≤ n ∧ n ≤ 70 then some (n - 55)
    else if 97 ≤ n ∧ n ≤ 102 then some (n - 87) else none
  d.filter (fun v => decide (v < base))

/-- A run of digits, the value of those already read given. -/
def digitsFrom (base acc : Nat) : List Char → Option Nat
  | [] => some acc
  | c :: cs => match digitOf base c with
    | some d => digitsFrom base (acc * base + d) cs
    | none => none

/-- "A number is decimal or `0x` hexadecimal" (R97). -/
def parseNat : List Char → Option Nat
  | [] => none
  | '0' :: 'x' :: c :: cs => digitsFrom 16 0 (c :: cs)
  | c :: cs => digitsFrom 10 0 (c :: cs)

/-- A signed number, for `x` and `y` of `SPRITE16` only (R98): a number of R97, after a minus sign or not (DESIGN CHOICE, log 15). -/
def parseInt : List Char → Option Int
  | '-' :: cs => (parseNat cs).map (fun n => -(n : Int))
  | cs => (parseNat cs).map (fun n => (n : Int))

/-- "A register operand is a name from `10_state.md` rule R30 ... or its number" (R97). -/
def parseReg (cs : List Char) : Option Nat :=
  if cs = ['C', 'T', 'R', 'L'] then some 0
  else if cs = ['S', 'T', 'A', 'T', 'U', 'S'] then some 1
  else if cs = ['S', 'C', 'X', 'L'] then some 2
  else if cs = ['S', 'C', 'X', 'H'] then some 3
  else if cs = ['S', 'C', 'Y', 'L'] then some 4
  else if cs = ['S', 'C', 'Y', 'H'] then some 5
  else parseNat cs

/-- A blank of the text (log 15). -/
def isBlank (c : Char) : Bool := c = ' ' || c = '\t'

/-- Text without the blanks at its two ends. -/
def trimBlanks (cs : List Char) : List Char :=
  ((cs.dropWhile isBlank).reverse.dropWhile isBlank).reverse

/-- Splits text at its commas. -/
def splitCommas : List Char → List (List Char)
  | [] => [[]]
  | c :: cs => match splitCommas cs with
    | [] => [[c]]
    | p :: ps => if c = ',' then [] :: p :: ps else (c :: p) :: ps

/-- The operands after the mnemonic. -/
def splitOperands (cs : List Char) : List (List Char) :=
  if trimBlanks cs = [] then [] else (splitCommas cs).map trimBlanks

/-- The kinds of operand, each with its range (R97, R98). -/
inductive OperandKind where
  /-- A number of `bits` bits. -/
  | unsigned (bits : Nat)
  /-- A register name or number. -/
  | register
  /-- Any integer. -/
  | signed
  /-- A record number whose last byte written, `stride*n + last`, is still a sprite RAM offset. -/
  | record (stride last : Nat)
deriving DecidableEq, Repr

/-- The value of an operand's text. A minus sign is read in a signed operand only: "A number is decimal or `0x` hexadecimal" (R97), so
`-0` is no unsigned number, register or record (DESIGN CHOICE, log 15). -/
def operandValue (k : OperandKind) (cs : List Char) : Option Int :=
  match k with
  | .signed => parseInt cs
  | .register => (parseReg cs).map Int.ofNat
  | .unsigned _ | .record _ _ => (parseNat cs).map Int.ofNat

/-- Reads one operand. -/
def readOperand (k : OperandKind) (cs : List Char) : Except AsmError Int :=
  match operandValue k cs with
  | none => .error .badOperands
  | some v =>
    let ok := match k with
      | .unsigned bits => decide (0 ≤ v) && decide (v < 2 ^ bits)
      | .register => decide (0 ≤ v) && decide (v < 65536)
      | .signed => true
      | .record stride last => decide (0 ≤ v) && decide (stride * v + last < 65536)
    if ok then .ok v else .error .outOfRange

/-- Reads the operands of a command, one of each kind in order. -/
def readOperands : List OperandKind → List (List Char) → Except AsmError (List Int)
  | [], [] => .ok []
  | k :: ks, t :: ts => match readOperand k t with
    | .error e => .error e
    | .ok v => match readOperands ks ts with
      | .error e => .error e
      | .ok vs => .ok (v :: vs)
  | _, _ => .error .badOperands

/-- The mnemonics of R97 and R98. -/
inductive AsmOp where
  | nop | twr | awr | trd | ard | swr | srd | rwr | rrd | fref | pchg | comp | pxrd | drd
  | setflip | scrollx | scrolly | tile | sprite4 | sprite16
deriving DecidableEq, Repr

/-- The mnemonics' text, in capitals (R97, R98). -/
def mnemonicTable : List (List Char × AsmOp) :=
  [(['N', 'O', 'P'], .nop), (['T', 'W', 'R'], .twr), (['A', 'W', 'R'], .awr), (['T', 'R', 'D'], .trd), (['A', 'R', 'D'], .ard),
   (['S', 'W', 'R'], .swr), (['S', 'R', 'D'], .srd), (['R', 'W', 'R'], .rwr), (['R', 'R', 'D'], .rrd),
   (['F', 'R', 'E', 'F'], .fref), (['P', 'C', 'H', 'G'], .pchg), (['C', 'O', 'M', 'P'], .comp),
   (['P', 'X', 'R', 'D'], .pxrd), (['D', 'R', 'D'], .drd),
   (['S', 'E', 'T', 'F', 'L', 'I', 'P'], .setflip), (['S', 'C', 'R', 'O', 'L', 'L', 'X'], .scrollx),
   (['S', 'C', 'R', 'O', 'L', 'L', 'Y'], .scrolly), (['T', 'I', 'L', 'E'], .tile),
   (['S', 'P', 'R', 'I', 'T', 'E', '4'], .sprite4), (['S', 'P', 'R', 'I', 'T', 'E', '1', '6'], .sprite16)]

/-- The operands a mnemonic takes: "`l` 0..15, `i`, `k`, `r` 0..65535, `v` 0..255, `x`, `y` 0..255" (R97) and those of R98. -/
def AsmOp.kinds : AsmOp → List OperandKind
  | .nop | .fref | .pchg | .comp => []
  | .twr | .awr => [.unsigned 4, .unsigned 16, .unsigned 8]
  | .trd | .ard | .drd => [.unsigned 4, .unsigned 16]
  | .swr => [.unsigned 16, .unsigned 8]
  | .srd => [.unsigned 16]
  | .rwr => [.unsigned 4, .register, .unsigned 8]
  | .rrd => [.unsigned 4, .register]
  | .pxrd => [.unsigned 8, .unsigned 8]
  | .setflip => [.unsigned 1]
  | .scrollx | .scrolly => [.unsigned 4, .unsigned 16]
  | .tile => [.unsigned 4, .unsigned 16, .unsigned 8, .unsigned 8]
  | .sprite4 => [.record 4 3, .unsigned 8, .unsigned 8, .unsigned 8, .unsigned 8]
  | .sprite16 => [.record 16 8, .signed, .signed, .unsigned 16, .unsigned 8, .unsigned 8, .unsigned 8]

/-- The commands of a mnemonic with its operand values (R97, R98). -/
def buildCommands (stride : SprStride) (op : AsmOp) (vs : List Int) : Except AsmError (List Instr) :=
  let n (k : Nat) : Nat := (vs.getD k 0).toNat
  let l : BitVec 4 := BitVec.ofNat 4 (n 0)
  let w (k : Nat) : BitVec 16 := BitVec.ofNat 16 (n k)
  let b (k : Nat) : Byte := BitVec.ofNat 8 (n k)
  match op with
  | .nop => .ok [.nop]
  | .twr => .ok [.twr l (w 1) (b 2)]
  | .awr => .ok [.awr l (w 1) (b 2)]
  | .trd => .ok [.trd l (w 1)]
  | .ard => .ok [.ard l (w 1)]
  | .swr => .ok [.swr (w 0) (b 1)]
  | .srd => .ok [.srd (w 0)]
  | .rwr => .ok [.rwr l (w 1) (b 2)]
  | .rrd => .ok [.rrd l (w 1)]
  | .fref => .ok [.fref]
  | .pchg => .ok [.pchg]
  | .comp => .ok [.comp]
  | .pxrd => .ok [.pxrd (b 0) (b 1)]
  | .drd => .ok [.drd l (w 1)]
  | .setflip => .ok (Pseudo.expand (.setflip (n 0 == 1)))
  | .scrollx => .ok (Pseudo.expand (.scrollx l (w 1)))
  | .scrolly => .ok (Pseudo.expand (.scrolly l (w 1)))
  | .tile => .ok (Pseudo.expand (.tile l (w 1) (b 2) (b 3)))
  | .sprite4 =>
    if stride = .four then .ok (Pseudo.expand (.sprite4 (n 0) (b 1) (b 2) (b 3) (b 4))) else .error .wrongStride
  | .sprite16 =>
    if stride = .sixteen then
      .ok (Pseudo.expand (.sprite16 (n 0) (vs.getD 1 0) (vs.getD 2 0) (w 3) (b 4) (b 5) (b 6)))
    else .error .wrongStride

/-- "One command per line: a mnemonic in capitals, then operands separated by commas ... `;` starts a comment" (R97). A line with no
mnemonic holds no command (log 15). -/
def assembleLine (stride : SprStride) (line : List Char) : Except AsmError (List Instr) :=
  let text := trimBlanks (line.takeWhile (fun c => c ≠ ';'))
  let name := text.takeWhile (fun c => !isBlank c)
  if name = [] then .ok []
  else match mnemonicTable.lookup name with
    | none => .error .unknownMnemonic
    | some op => match readOperands op.kinds (splitOperands (text.dropWhile (fun c => !isBlank c))) with
      | .error e => .error e
      | .ok vs => buildCommands stride op vs

/-- The assembler on a whole text, line after line, giving the command words (R97). -/
def assemble (stride : SprStride) : List (List Char) → Except AsmError (List CmdWord)
  | [] => .ok []
  | line :: rest => match assembleLine stride line with
    | .error e => .error e
    | .ok is => match assemble stride rest with
      | .error e => .error e
      | .ok ws => .ok (is.map encode ++ ws)

end Sys2Proof
end

