-- ==== Sys2Proof/Safety.lean ====
section
/-!
DEFINITION. Safety.lean: the terms claims use: the shape every state of a machine has, the states reset can leave
(`10_state.md` R38), the layer bitmap of the whole tile map (`42_tile_compositor.md` R172), the cache invariant (`10_state.md` R39),
and the frame predicates.
-/

namespace Sys2Proof.Machine

/-- A layer whose stores have the sizes of R22, R23, R24, R34 and their canonical form. -/
def Layer.wf (c : LayerCfg) (y : Layer) : Bool :=
  Memory.wf c.nt y.tm && Memory.wf c.nt y.am && DirtySet.wf c.nt y.dirty && Memory.wf c.bmpSize y.bmp

/-- One well-formed layer record per layer of the configuration. -/
def layersWf : List LayerCfg → List Layer → Bool
  | [], [] => true
  | c :: cs, y :: ys => Layer.wf c y && layersWf cs ys
  | _, _ => false

/-- The shape of a machine's state: a well-formed configuration (R9) and every store in canonical form at its size
(R22, R23, R24, R27, R34, R35, R36). -/
def State.wf (s : State) : Bool :=
  s.cfg.wf && layersWf s.cfg.layers s.layers && Memory.wf s.cfg.sprBytes s.spr &&
  Memory.wf s.cfg.screenSize s.fb && Memory.wf s.cfg.screenSize s.pri

/-- The states reset can leave (R38, R240): any content of `TM`, `AM`, `SPR`, `BMP`, `FB`, `PRI`. -/
def State.IsLaunch (s : State) : Prop :=
  ∃ content port k, s = State.afterReset s.built content port k

/-- The key of `BMP[l]` that `RedrawTile(l, i)` writes at column `dx`, row `dy` of the tile's rectangle, `Rect(l, i, flip)`
(R39, R163, R165). -/
def rectKey (c : LayerCfg) (flip : Bool) (y : Layer) (i dx dy : Nat) : Nat :=
  let p := tilePlace c flip i (Memory.read y.am i)
  tileKey c p.col p.row dx dy

/-- The pen written there, `Render(l, i, flip)` (R39, R163). -/
def renderPen (c : LayerCfg) (flip : Bool) (y : Layer) (i dx dy : Nat) : Byte :=
  let p := tilePlace c flip i (Memory.read y.am i)
  tilePen c (Memory.read y.tm i) (Memory.read y.am i) p.fx p.fy dx dy

/-- `BMP[l]` on `Rect(l, i, flip)` equals `Render(l, i, flip)` (R39). -/
def tileShown (c : LayerCfg) (flip : Bool) (y : Layer) (i : Nat) : Prop :=
  ∀ dx < c.tileW, ∀ dy < c.tileH, Memory.read y.bmp (rectKey c flip y i dx dy) = renderPen c flip y i dx dy

/-- The cache invariant for one layer (R39). -/
def layerCoherent (fullref flip : Bool) (c : LayerCfg) (y : Layer) : Prop :=
  ∀ i < c.nt, DirtySet.has y.dirty i = true ∨ fullref = true ∨ tileShown c flip y i

/-- The cache invariant (R39): "After reset and after every command, for every `l` and `i`, at least one of these holds". -/
def State.Coherent (s : State) : Prop :=
  ∀ l c y, s.layerAt l = some (c, y) → layerCoherent s.fullref s.flip c y

/-- A tile is redrawn by the next `COMP`: its bit is 1 after phase 1 (R161, R162). -/
def State.toRedraw (s : State) (y : Layer) (i : Nat) : Prop :=
  DirtySet.has y.dirty i = true ∨ s.fullref = true ∨ s.palchg = true

/-- The key of tile `i`'s rectangle is `key` (R163, R165). -/
def inRect (c : LayerCfg) (flip : Bool) (y : Layer) (i key : Nat) : Prop :=
  ∃ dx < c.tileW, ∃ dy < c.tileH, key = rectKey c flip y i dx dy

/-- Two states with the same `Cfg`, `TM`, `AM`, `SPR`, `SCX`, `SCY` (R172, R173, R202: all inputs of the picture but `CTRL.FLIP`). -/
def State.SameMemory (s t : State) : Prop :=
  s.cfg = t.cfg ∧ s.spr = t.spr ∧ s.layers.length = t.layers.length ∧
  ∀ (l : Nat) (y z : Layer), s.layers[l]? = some y → t.layers[l]? = some z →
    y.tm = z.tm ∧ y.am = z.am ∧ y.scx = z.scx ∧ y.scy = z.scy

/-- The read commands: "`TRD`, `ARD`, `SRD`, `RRD`, `DRD` and `PXRD` change no state" (R65). -/
def isRead : Instr → Bool
  | .trd _ _ | .ard _ _ | .srd _ | .rrd _ _ | .drd _ _ | .pxrd _ _ => true
  | .nop | .twr _ _ _ | .awr _ _ _ | .swr _ _ | .rwr _ _ _ | .fref | .pchg | .comp | .rsvdE | .rsvdF => false

/-- The commands with a response byte: the read commands and the reserved opcodes (R96). -/
def hasResponse : Instr → Bool
  | .trd _ _ | .ard _ _ | .srd _ | .rrd _ _ | .drd _ _ | .pxrd _ _ | .rsvdE | .rsvdF => true
  | .nop | .twr _ _ _ | .awr _ _ _ | .swr _ _ | .rwr _ _ _ | .fref | .pchg | .comp => false

/-- The pen a sprite at a place puts on screen pixel `(px, py)`: none off the sprite, where it is transparent (R198) and where it is
suppressed (R199). -/
def placedPen (cfg : Cfg) (pri : Memory) (p : SpritePlace) (g : SpriteImage) (px py : Nat) : Option Byte :=
  let dx := (px : Int) - p.sx
  let dy := (py : Int) - p.sy
  if 0 ≤ dx ∧ dx < g.nx * cfg.cellW ∧ 0 ≤ dy ∧ dy < g.ny * cfg.cellH then
    let pen := spritePen cfg g p.fx p.fy dx.toNat dy.toNat
    if cfg.sprTransp ≠ some pen ∧ Memory.read pri (pixelKey cfg px py) &&& g.pmask = 0 then some pen else none
  else none

/-- The pen record `n` puts on screen pixel `(px, py)`, its second draw over its first (R191, R201). The size in cells (R192) and the
second place (R201) are written out here, not taken from the sprite pass. -/
def recordPen (cfg : Cfg) (flip : Bool) (spr pri : Memory) (n px py : Nat) : Option Byte :=
  let r := spriteRecord cfg spr n
  let g : SpriteImage := ⟨2 ^ r.sizeX, 2 ^ r.sizeY, r.code, r.color, r.priorityMask⟩
  let p := spritePlace cfg flip r.x r.y (g.nx * cfg.cellW) (g.ny * cfg.cellH) r.flipX r.flipY
  if r.enable then
    if n ∈ cfg.doubleDraw then (placedPen cfg pri ⟨(p.sx + 128) % 256, (p.sy + 128) % 256, p.fx, p.fy⟩ g px py).or (placedPen cfg pri p g px py)
    else placedPen cfg pri p g px py
  else none

/-- Layer `l` is opaque at screen pixel `(px, py)` with pen `pen` (R167, R170). -/
def State.showsPen (s : State) (l px py : Nat) (pen : Byte) : Prop :=
  ∃ c y, s.layerAt l = some (c, y) ∧ pen = layerPen s.cfg s.flip c y px py ∧ c.transp ≠ some pen

/-- The point mirror of a framebuffer pixel, `(SCREEN_W-1-x, SCREEN_H-1-y)` (R173). -/
def mirrorKey (cfg : Cfg) (x y : Nat) : Nat :=
  pixelKey cfg (cfg.screenW - 1 - x) (cfg.screenH - 1 - y)

/-- A safe run never meets a fault or a refusal (R220). -/
def Safe (M : Host.Core) (k : Nat) (s : M.State) : Prop :=
  ∃ t, M.run k s = .next t

end Sys2Proof.Machine
end

