-- ==== Sys2Proof/Certificates/Slice0/Obligations.lean ====
section
/-!
DEFINITION. Certificates/Slice0/Obligations.lean: the statements for the provers. Each docstring names the rule of `spec/` it
formalises. A premise `s.wf` is the shape of a machine's state; `StepKeepsShape` and `LaunchStatesAreCoherent` state that it holds at
reset and is kept.
-/

open Sys2Proof Sys2Proof.Machine

/-! ### Encoding -/

/-- Decode and encode agree on every command (R92, R93, R97), with every operand at every value of its field. That `RWR` and `RRD` of
`CTRL` or `STATUS` give back their `l` is the model's choice (log 20). -/
def Obligations.DecodeEncodeRoundTrip : Prop :=
  ∀ i : Instr, i.wf = true ∧ decode (encode i) = i ∧ decodeTableWord 32 (encode i).toNat = some i

/-- Every word matches exactly one row of the opcode map, the row of the command it decodes to (R93, R94). -/
def Obligations.EveryWordMatchesOneRow : Prop :=
  ∀ w : CmdWord, ∃ r ∈ opcodeTable, r.accepts w = true ∧ r.mnemonic = (decode w).mnemonic ∧
    r.pattern = (opField w).setWidth 32 <<< 28 ∧ ∀ r' ∈ opcodeTable, r'.accepts w = true → r' = r

/-- Encoding a decoded word gives the word with its ignored fields 0, and no used field changed (R92, R94, R97): ignored by
the command's format. That `RWR` and `RRD` of `CTRL` or `STATUS` keep `sel` is the model's choice (log 20). -/
def Obligations.ReencodeClearsIgnoredFields : Prop :=
  ∀ (sel : BitVec 4) (off : BitVec 16) (data : Byte),
    (∀ op ∈ [0x1#4, 0x2#4, 0x7#4], encode (decode (joinFields op sel off data)) = joinFields op sel off data) ∧
    (∀ op ∈ [0x3#4, 0x4#4, 0x8#4, 0xD#4], encode (decode (joinFields op sel off data)) = joinFields op sel off 0) ∧
    encode (decode (joinFields 0x5 sel off data)) = joinFields 0x5 0 off data ∧
    (∀ op ∈ [0x6#4, 0xC#4], encode (decode (joinFields op sel off data)) = joinFields op 0 off 0) ∧
    (∀ op ∈ [0x0#4, 0x9#4, 0xA#4, 0xB#4, 0xE#4, 0xF#4], encode (decode (joinFields op sel off data)) = joinFields op 0 0 0)

/-- The assembler's encodings, number by number (R97). `l << 24` for `RWR` and `RRD` of `CTRL` or `STATUS` too is the model's choice
between R97's table and its sentence on ignored fields (log 20). -/
def Obligations.AssemblerEncodings : Prop :=
  (∀ (l : BitVec 4) (i : BitVec 16) (v : Byte),
    (encode (.twr l i v)).toNat = 0x10000000 ||| l.toNat <<< 24 ||| i.toNat <<< 8 ||| v.toNat ∧
    (encode (.awr l i v)).toNat = 0x20000000 ||| l.toNat <<< 24 ||| i.toNat <<< 8 ||| v.toNat ∧
    (encode (.rwr l i v)).toNat = 0x70000000 ||| l.toNat <<< 24 ||| i.toNat <<< 8 ||| v.toNat ∧
    (encode (.trd l i)).toNat = 0x30000000 ||| l.toNat <<< 24 ||| i.toNat <<< 8 ∧
    (encode (.ard l i)).toNat = 0x40000000 ||| l.toNat <<< 24 ||| i.toNat <<< 8 ∧
    (encode (.rrd l i)).toNat = 0x80000000 ||| l.toNat <<< 24 ||| i.toNat <<< 8 ∧
    (encode (.drd l i)).toNat = 0xD0000000 ||| l.toNat <<< 24 ||| i.toNat <<< 8 ∧
    (encode (.swr i v)).toNat = 0x50000000 ||| i.toNat <<< 8 ||| v.toNat ∧
    (encode (.srd i)).toNat = 0x60000000 ||| i.toNat <<< 8) ∧
  (∀ x y : Byte, (encode (.pxrd x y)).toNat = 0xC0000000 ||| y.toNat <<< 16 ||| x.toNat <<< 8) ∧
  encode .nop = 0x00000000 ∧ encode .fref = 0x90000000 ∧ encode .pchg = 0xA0000000 ∧ encode .comp = 0xB0000000

/-- Words written out from R92 and R93 (vectors V1 to V9, V12, V13, V23 and program P1), one or more per format, decode to their
commands. -/
def Obligations.SampleWordsDecode : Prop :=
  decode 0x1000052A = .twr 0 5 0x2A ∧ decode 0x21000347 = .awr 1 3 0x47 ∧ decode 0xC0020300 = .pxrd 3 2 ∧
  decode 0x0ABCDEF1 = .nop ∧ decode 0xB1234567 = .comp ∧ decode 0x5F000177 = .swr 1 0x77 ∧ decode 0x300001FF = .trd 0 1 ∧
  decode 0x79000001 = .rwr 9 0 1 ∧ decode 0xD1000300 = .drd 1 3 ∧ decode 0xD0000100 = .drd 0 1 ∧
  decode 0x81000300 = .rrd 1 3 ∧ decode 0x60000900 = .srd 9 ∧ decode 0xE0000000 = .rsvdE ∧
  decode 0xFFFFFFFF = .rsvdF

/-- The pseudo-commands expand as R98's table says. -/
def Obligations.PseudoCommandsExpand : Prop :=
  (∀ b, (Pseudo.setflip b).expand = [.rwr 0 0x0000 (if b then 1 else 0)]) ∧
  (∀ l v, (Pseudo.scrollx l v).expand = [.rwr l 0x0002 (BitVec.ofNat 8 (v.toNat % 256)), .rwr l 0x0003 (BitVec.ofNat 8 (v.toNat / 256))]) ∧
  (∀ l v, (Pseudo.scrolly l v).expand = [.rwr l 0x0004 (BitVec.ofNat 8 (v.toNat % 256)), .rwr l 0x0005 (BitVec.ofNat 8 (v.toNat / 256))]) ∧
  (∀ l i t a, (Pseudo.tile l i t a).expand = [.twr l i t, .awr l i a]) ∧
  (∀ n x y code attr, (Pseudo.sprite4 n x y code attr).expand =
    [.swr (BitVec.ofNat 16 (4 * n)) x, .swr (BitVec.ofNat 16 (4 * n + 1)) y, .swr (BitVec.ofNat 16 (4 * n + 2)) code,
     .swr (BitVec.ofNat 16 (4 * n + 3)) attr]) ∧
  (∀ n x y code color flags pmask, (Pseudo.sprite16 n x y code color flags pmask).expand =
    [.swr (BitVec.ofNat 16 (16 * n)) (BitVec.ofInt 8 (x % 256)), .swr (BitVec.ofNat 16 (16 * n + 1)) (BitVec.ofInt 8 (x / 256 % 256)),
     .swr (BitVec.ofNat 16 (16 * n + 2)) (BitVec.ofInt 8 (y % 256)), .swr (BitVec.ofNat 16 (16 * n + 3)) (BitVec.ofInt 8 (y / 256 % 256)),
     .swr (BitVec.ofNat 16 (16 * n + 4)) (BitVec.ofNat 8 (code.toNat % 256)),
     .swr (BitVec.ofNat 16 (16 * n + 5)) (BitVec.ofNat 8 (code.toNat / 256)),
     .swr (BitVec.ofNat 16 (16 * n + 6)) color, .swr (BitVec.ofNat 16 (16 * n + 7)) flags, .swr (BitVec.ofNat 16 (16 * n + 8)) pmask])

/-! ### Memory port commands -/

/-- `TWR` (R120): the tile byte and the dirty bit, everything else unchanged; dropped when the layer does not exist. -/
def Obligations.TwrEffect : Prop :=
  ∀ (s : State) (sel : BitVec 4) (off : BitVec 16) (v : Byte), s.wf = true →
    decode (joinFields 0x1 sel off v) = .twr sel off v ∧
    (s.cfg.nLayers ≤ sel.toNat → exec (.twr sel off v) s = .next { s with rsp := none }) ∧
    (∀ c y, s.layerAt sel.toNat = some (c, y) → ∃ tm dirty,
      exec (.twr sel off v) s = .next
        { s with layers := s.layers.set sel.toNat { y with tm := tm, dirty := dirty }, rsp := none } ∧
      tileIndex c off = off.toNat % (c.mapW * c.mapH) ∧
      (∀ k, Memory.read tm k = if k = tileIndex c off then v else Memory.read y.tm k) ∧
      (∀ k, DirtySet.has dirty k = true ↔
        DirtySet.has y.dirty k = true ∨ (k = tileIndex c off ∧ Memory.read y.tm k ≠ v)) ∧
      (Memory.read y.tm (tileIndex c off) = v → tm = y.tm ∧ dirty = y.dirty))

/-- `AWR` (R121): as `TWR`, on attribute memory. -/
def Obligations.AwrEffect : Prop :=
  ∀ (s : State) (sel : BitVec 4) (off : BitVec 16) (v : Byte), s.wf = true →
    decode (joinFields 0x2 sel off v) = .awr sel off v ∧
    (s.cfg.nLayers ≤ sel.toNat → exec (.awr sel off v) s = .next { s with rsp := none }) ∧
    (∀ c y, s.layerAt sel.toNat = some (c, y) → ∃ am dirty,
      exec (.awr sel off v) s = .next
        { s with layers := s.layers.set sel.toNat { y with am := am, dirty := dirty }, rsp := none } ∧
      tileIndex c off = off.toNat % (c.mapW * c.mapH) ∧
      (∀ k, Memory.read am k = if k = tileIndex c off then v else Memory.read y.am k) ∧
      (∀ k, DirtySet.has dirty k = true ↔
        DirtySet.has y.dirty k = true ∨ (k = tileIndex c off ∧ Memory.read y.am k ≠ v)) ∧
      (Memory.read y.am (tileIndex c off) = v → am = y.am ∧ dirty = y.dirty))

/-- `TRD`, `ARD`, `DRD` (R122, R123, R126): the response, and nothing else changes. -/
def Obligations.LayerReadsRespond : Prop :=
  ∀ (s : State) (sel : BitVec 4) (off : BitVec 16) (d : Byte),
    decode (joinFields 0x3 sel off d) = .trd sel off ∧ decode (joinFields 0x4 sel off d) = .ard sel off ∧
    decode (joinFields 0xD sel off d) = .drd sel off ∧
    (s.cfg.nLayers ≤ sel.toNat →
      exec (.trd sel off) s = .next { s with rsp := some s.cfg.fill } ∧
      exec (.ard sel off) s = .next { s with rsp := some s.cfg.fill } ∧
      exec (.drd sel off) s = .next { s with rsp := some s.cfg.fill }) ∧
    (∀ c y, s.layerAt sel.toNat = some (c, y) →
      exec (.trd sel off) s = .next { s with rsp := some (Memory.read y.tm (off.toNat % (c.mapW * c.mapH))) } ∧
      exec (.ard sel off) s = .next { s with rsp := some (Memory.read y.am (off.toNat % (c.mapW * c.mapH))) } ∧
      exec (.drd sel off) s = .next
        { s with rsp := some (if off.toNat % (c.mapW * c.mapH) ∈ y.dirty then 0x01 else 0x00) })

/-- A layer number below `NLAYERS` is never unmapped in a machine's state (R67, R128). -/
def Obligations.LayersBelowCountAreMapped : Prop :=
  ∀ (s : State) (l : Nat), s.wf = true → (l < s.cfg.nLayers ↔ ∃ c y, s.layerAt l = some (c, y))

/-- `SWR` (R124): one byte of sprite RAM, everything else unchanged. -/
def Obligations.SwrEffect : Prop :=
  ∀ (s : State) (sel : BitVec 4) (off : BitVec 16) (v : Byte), s.wf = true →
    decode (joinFields 0x5 sel off v) = .swr off v ∧
    ∃ spr, exec (.swr off v) s = .next { s with spr := spr, rsp := none } ∧
      spriteIndex s.cfg off = off.toNat % s.cfg.sprBytes ∧
      ∀ k, Memory.read spr k = if k = spriteIndex s.cfg off then v else Memory.read s.spr k

/-- `SRD` (R125): the response, and nothing else changes. -/
def Obligations.SrdResponds : Prop :=
  ∀ (s : State) (sel : BitVec 4) (off : BitVec 16) (d : Byte),
    decode (joinFields 0x6 sel off d) = .srd off ∧
    exec (.srd off) s = .next { s with rsp := some (Memory.read s.spr (off.toNat % s.cfg.sprBytes)) }

/-- `PXRD` (R127): `FB[y][x]` on the screen, `FILL` outside it, and nothing else changes; the presentation collaborator reads the same
value (R90). -/
def Obligations.PxrdResponds : Prop :=
  ∀ (s : State) (sel : BitVec 4) (off : BitVec 16) (d : Byte),
    decode (joinFields 0xC sel off d) = .pxrd (BitVec.ofNat 8 (off.toNat % 256)) (BitVec.ofNat 8 (off.toNat / 256)) ∧
    ∀ x y : Byte,
      (x.toNat < s.cfg.screenW ∧ y.toNat < s.cfg.screenH →
        exec (.pxrd x y) s = .next { s with rsp := some (Memory.read s.fb (y.toNat * s.cfg.screenW + x.toNat)) }) ∧
      (s.cfg.screenW ≤ x.toNat ∨ s.cfg.screenH ≤ y.toNat → exec (.pxrd x y) s = .next { s with rsp := some s.cfg.fill }) ∧
      exec (.pxrd x y) s = .next { s with rsp := some (s.presented x.toNat y.toNat) }

/-- What a write command stored is what the next read of it answers (R65, R70, R73). -/
def Obligations.ReadAnswersLastWrite : Prop :=
  ∀ (s : State) (sel : BitVec 4) (off : BitVec 16) (v : Byte), s.wf = true → sel.toNat < s.cfg.nLayers →
    (∃ t u, exec (.twr sel off v) s = .next t ∧ exec (.trd sel off) t = .next u ∧ u.rsp = some v) ∧
    (∃ t u, exec (.awr sel off v) s = .next t ∧ exec (.ard sel off) t = .next u ∧ u.rsp = some v) ∧
    (∃ t u, exec (.swr off v) s = .next t ∧ exec (.srd off) t = .next u ∧ u.rsp = some v)

/-- "A write of the value already present is idempotent and has no effect at all" (R65). -/
def Obligations.RewritingTheSameByteChangesNothing : Prop :=
  ∀ (s : State) (sel : BitVec 4) (off : BitVec 16), s.wf = true →
    (∀ v, exec (.trd sel off) s = .next { s with rsp := some v } → sel.toNat < s.cfg.nLayers →
      exec (.twr sel off v) s = .next { s with rsp := none }) ∧
    (∀ v, exec (.ard sel off) s = .next { s with rsp := some v } → sel.toNat < s.cfg.nLayers →
      exec (.awr sel off v) s = .next { s with rsp := none }) ∧
    (∀ v, exec (.srd off) s = .next { s with rsp := some v } → exec (.swr off v) s = .next { s with rsp := none }) ∧
    (∀ v, exec (.rrd sel off) s = .next { s with rsp := some v } → exec (.rwr sel off v) s = .next { s with rsp := none })

/-- The read commands change no state, and repeating one answers the same byte (R65). -/
def Obligations.ReadsHaveNoSideEffect : Prop :=
  ∀ (i : Instr) (s : State), isRead i = true → ∃ b,
    exec i s = .next { s with rsp := some b } ∧
    exec i { s with rsp := some b } = .next { s with rsp := some b }

/-! ### Control commands -/

/-- `NOP` (R140): nothing, no response, whatever the other fields hold. -/
def Obligations.NopDoesNothing : Prop :=
  ∀ (s : State) (sel : BitVec 4) (off : BitVec 16) (d : Byte),
    decode (joinFields 0x0 sel off d) = .nop ∧ exec .nop s = .next { s with rsp := none }

/-- `FREF` (R144) and `PCHG` (R145): the flag is set, nothing else changes. -/
def Obligations.RefreshRequests : Prop :=
  ∀ (s : State) (sel : BitVec 4) (off : BitVec 16) (d : Byte),
    decode (joinFields 0x9 sel off d) = .fref ∧ decode (joinFields 0xA sel off d) = .pchg ∧
    exec .fref s = .next { s with fullref := true, rsp := none } ∧
    exec .pchg s = .next { s with palchg := true, rsp := none }

/-- `RWR` (R141, R143): each register's write, the discarded and the dropped ones; `sel` is ignored for the global registers. -/
def Obligations.RwrEffect : Prop :=
  ∀ (s : State) (sel : BitVec 4) (off : BitVec 16) (v : Byte),
    decode (joinFields 0x7 sel off v) = .rwr sel off v ∧
    exec (.rwr sel 0 v) s = .next
      { s with flip := v.getLsbD 0, fullref := s.fullref || (v.getLsbD 0 != s.flip), rsp := none } ∧
    exec (.rwr sel 1 v) s = .next { s with rsp := none } ∧
    (6 ≤ off.toNat → exec (.rwr sel off v) s = .next { s with rsp := none }) ∧
    (s.cfg.nLayers ≤ sel.toNat → ∀ r ∈ [2#16, 3#16, 4#16, 5#16], exec (.rwr sel r v) s = .next { s with rsp := none }) ∧
    (∀ c y, s.layerAt sel.toNat = some (c, y) → ∃ xl xh yl yh : BitVec 16,
      xl.toNat = y.scx.toNat / 256 * 256 + v.toNat ∧ xh.toNat = v.toNat * 256 + y.scx.toNat % 256 ∧
      yl.toNat = y.scy.toNat / 256 * 256 + v.toNat ∧ yh.toNat = v.toNat * 256 + y.scy.toNat % 256 ∧
      exec (.rwr sel 2 v) s = .next { s with layers := s.layers.set sel.toNat { y with scx := xl }, rsp := none } ∧
      exec (.rwr sel 3 v) s = .next { s with layers := s.layers.set sel.toNat { y with scx := xh }, rsp := none } ∧
      exec (.rwr sel 4 v) s = .next { s with layers := s.layers.set sel.toNat { y with scy := yl }, rsp := none } ∧
      exec (.rwr sel 5 v) s = .next { s with layers := s.layers.set sel.toNat { y with scy := yh }, rsp := none })

/-- `RRD` (R142, R143): each register's byte, and nothing else changes. -/
def Obligations.RrdResponds : Prop :=
  ∀ (s : State) (sel : BitVec 4) (off : BitVec 16) (d : Byte),
    decode (joinFields 0x8 sel off d) = .rrd sel off ∧
    exec (.rrd sel 0) s = .next { s with rsp := some (BitVec.ofNat 8 s.flip.toNat) } ∧
    exec (.rrd sel 1) s = .next { s with rsp := some (BitVec.ofNat 8 (2 * s.palchg.toNat + s.fullref.toNat)) } ∧
    (6 ≤ off.toNat → exec (.rrd sel off) s = .next { s with rsp := some s.cfg.fill }) ∧
    (s.cfg.nLayers ≤ sel.toNat → ∀ r ∈ [2#16, 3#16, 4#16, 5#16], exec (.rrd sel r) s = .next { s with rsp := some s.cfg.fill }) ∧
    (∀ c y, s.layerAt sel.toNat = some (c, y) →
      exec (.rrd sel 2) s = .next { s with rsp := some (BitVec.ofNat 8 (y.scx.toNat % 256)) } ∧
      exec (.rrd sel 3) s = .next { s with rsp := some (BitVec.ofNat 8 (y.scx.toNat / 256)) } ∧
      exec (.rrd sel 4) s = .next { s with rsp := some (BitVec.ofNat 8 (y.scy.toNat % 256)) } ∧
      exec (.rrd sel 5) s = .next { s with rsp := some (BitVec.ofNat 8 (y.scy.toNat / 256)) })

/-- The reserved opcodes (R95): no state change, response `FILL`, whatever the other fields hold. -/
def Obligations.ReservedOpcodesAnswerFill : Prop :=
  ∀ (s : State) (sel : BitVec 4) (off : BitVec 16) (d : Byte),
    decode (joinFields 0xE sel off d) = .rsvdE ∧ decode (joinFields 0xF sel off d) = .rsvdF ∧
    exec .rsvdE s = .next { s with rsp := some s.cfg.fill } ∧ exec .rsvdF s = .next { s with rsp := some s.cfg.fill }

/-! ### Rules of the whole machine -/

/-- Every command completes in every state, with a response byte exactly for the read commands and the reserved opcodes (R96, R220). -/
def Obligations.EveryCommandCompletes : Prop :=
  ∀ (i : Instr) (s : State), ∃ t, exec i s = .next t ∧ (t.rsp.isSome = true ↔ hasResponse i = true)

/-- Each store changes only by the commands that own it (R25, R61): `TM` by `TWR`, `AM` by `AWR`, `SPR` by `SWR`, the registers by
`RWR`, the buffers by `COMP`; configuration and port by no command. -/
def Obligations.StoresChangeOnlyByTheirCommands : Prop :=
  ∀ (i : Instr) (s : State), s.wf = true → ∃ t, exec i s = .next t ∧
    t.cfg = s.cfg ∧ t.port = s.port ∧ t.powerUps = s.powerUps ∧ t.layers.length = s.layers.length ∧
    ((∀ off v, i ≠ .swr off v) → t.spr = s.spr) ∧
    ((∀ sel off v, i ≠ .rwr sel off v) → t.flip = s.flip) ∧
    (i ≠ .comp → t.fb = s.fb ∧ t.pri = s.pri) ∧
    (∀ l c y, s.layerAt l = some (c, y) → ∃ z, t.layerAt l = some (c, z) ∧
      ((∀ off v, i ≠ .twr (BitVec.ofNat 4 l) off v) → z.tm = y.tm) ∧
      ((∀ off v, i ≠ .awr (BitVec.ofNat 4 l) off v) → z.am = y.am) ∧
      ((∀ off v, i ≠ .rwr (BitVec.ofNat 4 l) off v) → z.scx = y.scx ∧ z.scy = y.scy) ∧
      (i ≠ .comp → z.bmp = y.bmp))

/-- Dirty bits and the two requests: no command but `COMP` clears one, and a bit is newly set by a tile or attribute write of that
tile with another value only (R24, R32). -/
def Obligations.DirtyBitsChangeOnlyAsTracked : Prop :=
  ∀ (i : Instr) (s : State), s.wf = true → i ≠ .comp → ∃ t, exec i s = .next t ∧
    (s.fullref = true → t.fullref = true) ∧ (s.palchg = true → t.palchg = true) ∧
    (∀ l c y, s.layerAt l = some (c, y) → ∃ z, t.layerAt l = some (c, z) ∧
      (∀ k, DirtySet.has y.dirty k = true → DirtySet.has z.dirty k = true) ∧
      (∀ k, DirtySet.has z.dirty k = true → DirtySet.has y.dirty k = true ∨ ∃ off v, tileIndex c off = k ∧
        ((i = .twr (BitVec.ofNat 4 l) off v ∧ Memory.read y.tm k ≠ v) ∨
         (i = .awr (BitVec.ofNat 4 l) off v ∧ Memory.read y.am k ≠ v))))

/-- A step takes the oldest input; a command word is decoded and executed on the state with the input taken (R13, R70). The host's way
to place a word makes it the next command. -/
def Obligations.StepRunsTheDecodedCommand : Prop :=
  (∀ (s : State) (w : CmdWord) (rest : List PortInput), s.port = .command w :: rest →
    step s = exec (decode w) { s with port := rest }) ∧
  (∀ (s : State) (w : CmdWord), step (s.withFetchWord 32 w.toNat) = exec (decode w) s)

/-- The model's choice (log 5): with nothing at the port a step changes nothing. -/
def Obligations.IdleStepChangesNothing : Prop :=
  ∀ s : State, s.port = [] → step s = .next s

/-- Machine construction (R9, R222): an ill-formed configuration is refused, with the checks that fail (their names: log 9), and no
state carries one; a well-formed one gives a machine in a reset state of that configuration holding the given content. -/
def Obligations.IllFormedConfigIsRefused : Prop :=
  (∀ (cfg : Cfg) (content : Config.Store → Nat → Byte), cfg.wf = false →
    cfg.errors ≠ [] ∧ State.build cfg content = .refused (.illFormedConfig cfg.errors)) ∧
  (∀ (cfg : Cfg) (content : Config.Store → Nat → Byte), cfg.wf = true → cfg.errors = [] ∧ ∃ t,
    State.build cfg content = .next t ∧ t.IsLaunch ∧ t.cfg = cfg ∧ t.port = [] ∧ ∀ i < cfg.sprBytes, Memory.read t.spr i = content .spr i) ∧
  ∀ s : State, s.cfg.wf = true

/-- `rst` (R240, R242): the state of R38 whatever the machine held; configuration and later inputs stay. -/
def Obligations.ResetEventTakesTheResetState : Prop :=
  ∀ (s : State) (rest : List PortInput), s.port = .rst :: rest → ∃ t,
    step s = .next t ∧ t.IsLaunch ∧ t.wf = true ∧ t.cfg = s.cfg ∧ t.port = rest ∧
    t.flip = false ∧ t.fullref = false ∧ t.palchg = false ∧ t.rsp = none ∧
    ∀ l c, s.cfg.layers[l]? = some c → ∃ y, t.layerAt l = some (c, y) ∧ y.scx = 0 ∧ y.scy = 0 ∧
      ∀ i, DirtySet.has y.dirty i = true ↔ i < c.nt

/-- No run stops: any number of steps completes, and the configuration never changes
(R13, R220, R247). -/
def Obligations.RunsNeverStop : Prop :=
  ∀ (k : Nat) (s : State), ∃ t : State, Host.Core.run Sys2Proof.core k s = .next t ∧ t.cfg = s.cfg

/-- The states reset can leave (R38): every dirty bit 1, flags and scroll 0, the stores holding any content. -/
def Obligations.LaunchStateValues : Prop :=
  ∀ (b : BuiltCfg) (content : Config.Store → Nat → Byte) (port : List PortInput) (k : Nat),
    let s := State.afterReset b content port k
    let cfg := b.cfg
    s.cfg = cfg ∧ s.flip = false ∧ s.fullref = false ∧ s.palchg = false ∧ s.layers.length = cfg.nLayers ∧
    (∀ i < cfg.sprBytes, Memory.read s.spr i = content .spr i) ∧
    (∀ i < cfg.screenSize, Memory.read s.fb i = content .fb i ∧ Memory.read s.pri i = content .pri i) ∧
    ∀ l c, cfg.layers[l]? = some c → ∃ y, s.layerAt l = some (c, y) ∧ y.scx = 0 ∧ y.scy = 0 ∧
      (∀ i, DirtySet.has y.dirty i = true ↔ i < c.nt) ∧
      (∀ i < c.nt, Memory.read y.tm i = content (.tm l) i ∧ Memory.read y.am i = content (.am l) i) ∧
      (∀ i < c.bmpSize, Memory.read y.bmp i = content (.bmp l) i)

/-- Every state reset can leave has the shape and meets the cache invariant "from the first moment" (R39, R241). -/
def Obligations.LaunchStatesAreCoherent : Prop :=
  ∀ s : State, s.IsLaunch → s.wf = true ∧ s.Coherent

/-- `State.reset` (the model's choice, logs 2 and 3) is one of the states R38 allows, well shaped and coherent. -/
def Obligations.ResetStateIsALaunchState : Prop :=
  State.reset.IsLaunch ∧ State.reset.wf = true ∧ State.reset.Coherent

/-- Every step keeps the shape: the configuration well formed, every store in canonical form at its size (R9, R22 to R36). -/
def Obligations.StepKeepsShape : Prop :=
  ∀ s : State, s.wf = true → ∃ t, step s = .next t ∧ t.wf = true

/-- Every step keeps the cache invariant (R39). -/
def Obligations.StepKeepsCacheInvariant : Prop :=
  ∀ s : State, s.wf = true → s.Coherent → ∃ t, step s = .next t ∧ t.Coherent

/-! ### `COMP`: tiles -/

/-- `COMP` (R160): what it leaves unchanged, the flags and the dirty bits, whatever the other fields hold. -/
def Obligations.CompFrame : Prop :=
  ∀ (s : State) (sel : BitVec 4) (off : BitVec 16) (d : Byte), s.wf = true →
    decode (joinFields 0xB sel off d) = .comp ∧
    ∃ layers fb pri, exec .comp s = .next
        { s with layers := layers, fullref := false, palchg := false, fb := fb, pri := pri, rsp := none } ∧
      layers.length = s.layers.length ∧
      ∀ (l : Nat) (y : Layer), s.layers[l]? = some y → ∃ bmp,
        layers[l]? = some { y with dirty := [], bmp := bmp }

/-- Exactly the tiles whose bit is 1 after phase 1 are redrawn; every other pixel of the layer bitmap is kept (R161, R162, R163). -/
def Obligations.CompRedrawsExactlyTheDirtyTiles : Prop :=
  ∀ (s : State) (l : Nat) (c : LayerCfg) (y : Layer), s.wf = true → s.layerAt l = some (c, y) →
    ∃ t z, exec .comp s = .next t ∧ t.layerAt l = some (c, z) ∧
      (∀ i < c.nt, s.toRedraw y i → ∀ dx < c.tileW, ∀ dy < c.tileH,
        Memory.read z.bmp (rectKey c s.flip y i dx dy) = renderPen c s.flip y i dx dy) ∧
      (∀ k, (∀ i < c.nt, s.toRedraw y i → ¬ inRect c s.flip y i k) → Memory.read z.bmp k = Memory.read y.bmp k)

/-- `RedrawTile`'s rectangle and pens in numbers (R26, R163, R164, R165), unflipped and flipped. -/
def Obligations.TileRectangleAndPens : Prop :=
  ∀ (c : LayerCfg) (y : Layer) (i dx dy : Nat), c.ok = true → i < c.nt → dx < c.tileW → dy < c.tileH →
    let t := (Memory.read y.tm i).toNat
    let a := (Memory.read y.am i).toNat
    let code := (t + a / 16 % 4 * 256) % c.npat
    let col := i % c.mapW
    let row := i / c.mapW
    let ox (m : Nat) := if (a / 64 + m) % 2 = 1 then c.tileW - 1 - dx else dx
    let oy (m : Nat) := if (a / 128 + m) % 2 = 1 then c.tileH - 1 - dy else dy
    code < c.npat ∧
    rectKey c false y i dx dy = (row * c.tileH + dy) * (c.mapW * c.tileW) + (col * c.tileW + dx) ∧
    renderPen c false y i dx dy = c.tpenAt (a % 16) (c.tgfxAt code (oy 0) (ox 0)) ∧
    rectKey c true y i dx dy =
      ((c.mapH - 1 - row) * c.tileH + dy) * (c.mapW * c.tileW) + ((c.mapW - 1 - col) * c.tileW + dx) ∧
    renderPen c true y i dx dy = c.tpenAt (a % 16) (c.tgfxAt code (oy 1) (ox 1))

/-- Rectangles of different tiles are disjoint and together cover the layer bitmap (R165): each pixel is one pixel of one tile. -/
def Obligations.EveryBitmapPixelIsOneTiles : Prop :=
  ∀ (c : LayerCfg) (y : Layer) (flip : Bool) (k : Nat), c.ok = true → k < c.bmpSize →
    ∃ i dx dy, i < c.nt ∧ dx < c.tileW ∧ dy < c.tileH ∧ rectKey c flip y i dx dy = k ∧
      ∀ i' dx' dy', i' < c.nt → dx' < c.tileW → dy' < c.tileH → rectKey c flip y i' dx' dy' = k → i' = i ∧ dx' = dx ∧ dy' = dy

/-- After any `COMP` of a coherent machine every layer bitmap is the picture of the whole tile map (R39, R172). -/
def Obligations.CompLeavesTheWholePicture : Prop :=
  ∀ s : State, s.wf = true → s.Coherent → ∃ t, exec .comp s = .next t ∧
    ∀ l c z, t.layerAt l = some (c, z) → ∀ i < c.nt, tileShown c t.flip z i

/-- Phases 3 and 4 on a pixel (R166, R167, R168, R170): the frontmost opaque layer's pen, the background pen where no layer is
opaque. -/
def Obligations.TilePictureIsFrontmostOpaqueLayer : Prop :=
  ∀ (s : State) (px py : Nat), s.wf = true → px < s.cfg.screenW → py < s.cfg.screenH →
    (∀ l pen, s.compositeTiles.showsPen l px py pen → (∀ l' > l, ∀ pen', ¬ s.compositeTiles.showsPen l' px py pen') →
      Memory.read s.compositeTiles.fb (py * s.cfg.screenW + px) = pen) ∧
    ((∀ l pen, ¬ s.compositeTiles.showsPen l px py pen) →
      Memory.read s.compositeTiles.fb (py * s.cfg.screenW + px) = s.cfg.bgPen)

/-- `PRI` after `COMP` is the OR of `LPRI[l]` over the layers opaque at the pixel (R36, R171); sprites do not change it (R200). -/
def Obligations.PriorityIsOrOfOpaqueLayers : Prop :=
  ∀ (s : State) (px py b : Nat), s.wf = true → px < s.cfg.screenW → py < s.cfg.screenH → b < 8 → ∃ t, exec .comp s = .next t ∧
    ((Memory.read t.pri (py * s.cfg.screenW + px)).getLsbD b = true ↔
      ∃ l c pen, s.cfg.layers[l]? = some c ∧ t.showsPen l px py pen ∧ c.lpri.getLsbD b = true)

/-- `LayerSource` (R169) stays on the bitmap, and the flipped source is the mirror of the unflipped one (R173). -/
def Obligations.FlippedScrollIsTheMirror : Prop :=
  ∀ (size screen pos : Nat) (scroll : BitVec 16), 0 < size → pos < screen →
    sourceAxis false pos scroll size screen = (pos + scroll.toNat) % size ∧
    (sourceAxis true pos scroll size screen : Int) = ((pos : Int) - scroll.toNat + size - screen) % size ∧
    sourceAxis true pos scroll size screen < size ∧
    size - 1 - sourceAxis true pos scroll size screen = sourceAxis false (screen - 1 - pos) scroll size screen

/-- The frame is a function of `Cfg`, `TM`, `AM`, `SPR`, `CTRL.FLIP`, `SCX`, `SCY` alone: not of the dirty bits, the requests or what
the bitmaps and buffers held (R39, R172). -/
def Obligations.FrameIsAFunctionOfMemory : Prop :=
  ∀ s t : State, s.wf = true → t.wf = true → s.Coherent → t.Coherent → s.SameMemory t → s.flip = t.flip →
    ∃ s' t', exec .comp s = .next s' ∧ exec .comp t = .next t' ∧ s'.fb = t'.fb ∧ s'.pri = t'.pri ∧ s'.layers = t'.layers

/-- Flip symmetry of the tile layers (R173): after phase 4 the flipped buffers are the point mirror of the unflipped ones. -/
def Obligations.TileFlipSymmetry : Prop :=
  ∀ s t : State, s.wf = true → t.wf = true → s.Coherent → t.Coherent → s.SameMemory t → s.flip = false → t.flip = true →
    ∀ px < s.cfg.screenW, ∀ py < s.cfg.screenH,
      Memory.read t.compositeTiles.fb (pixelKey s.cfg px py) = Memory.read s.compositeTiles.fb (mirrorKey s.cfg px py) ∧
      Memory.read t.compositeTiles.pri (pixelKey s.cfg px py) = Memory.read s.compositeTiles.pri (mirrorKey s.cfg px py)

/-! ### `COMP`: sprites -/

/-- Flip symmetry of the whole frame (R202) when `DOUBLE_DRAW` is empty. -/
def Obligations.FrameFlipSymmetry : Prop :=
  ∀ s t : State, s.wf = true → t.wf = true → s.Coherent → t.Coherent → s.SameMemory t → s.flip = false → t.flip = true →
    s.cfg.doubleDraw = [] → ∃ s' t', exec .comp s = .next s' ∧ exec .comp t = .next t' ∧
    ∀ px < s.cfg.screenW, ∀ py < s.cfg.screenH,
      Memory.read t'.fb (pixelKey s.cfg px py) = Memory.read s'.fb (mirrorKey s.cfg px py)

/-- `DrawSpriteAt` on a pixel (R194, R197, R198, R199): the sprite's pen where it covers the pixel, is opaque and allowed, else the
pixel as it was. -/
def Obligations.DrawSpriteAtPixel : Prop :=
  ∀ (cfg : Cfg) (pri fb : Memory) (p : SpritePlace) (g : SpriteImage) (px py : Nat),
    Memory.wf cfg.screenSize fb = true → px < cfg.screenW → py < cfg.screenH →
    Memory.read (drawSpriteAt cfg pri p g fb) (pixelKey cfg px py) =
      (placedPen cfg pri p g px py).getD (Memory.read fb (pixelKey cfg px py))

/-- `CellCode` bit by bit (R195): before the wrap at `NSPAT`, each bit that a cell of the sprite's size uses is the cell's own, every
other bit is the record's. -/
def Obligations.CellCodeReplacesTheUsedBits : Prop :=
  ∀ (cfg : Cfg) (code nx ny cx cy : Nat), cx < nx → cy < ny →
    ∃ n, cellCode cfg code nx ny cx cy = n % cfg.nspat ∧
      ∀ b, ((∃ j < ny, ∃ k < nx, (cfg.layoutAt j k).testBit b = true) → n.testBit b = (cfg.layoutAt cy cx).testBit b) ∧
        ((∀ j < ny, ∀ k < nx, (cfg.layoutAt j k).testBit b = false) → n.testBit b = code.testBit b)

/-- The pen of a sprite pixel comes from one pixel of one cell (R194): the cell and the pixel inside it that stand at the column and row
of the whole picture, both mirrored as a whole by the flips. -/
def Obligations.SpritePenComesFromItsCell : Prop :=
  ∀ (cfg : Cfg) (g : SpriteImage) (fx fy : Bool) (cx cy ex ey : Nat),
    cx < g.nx → cy < g.ny → ex < cfg.cellW → ey < cfg.cellH →
    let ox := cx * cfg.cellW + ex
    let oy := cy * cfg.cellH + ey
    spritePen cfg g fx fy (if fx then g.nx * cfg.cellW - 1 - ox else ox) (if fy then g.ny * cfg.cellH - 1 - oy else oy) =
      cfg.spenAt g.color (cfg.sgfxAt (cellCode cfg g.code g.nx g.ny cx cy) ey ex)

/-- The sprite pass on a pixel (R190, R191, R200, R201): the lowest-numbered record that draws the pixel is the one seen, over the
tile picture, every priority test seeing the tile layers only. -/
def Obligations.LowestRecordIsOnTop : Prop :=
  ∀ (s : State) (px py : Nat), s.wf = true → px < s.cfg.screenW → py < s.cfg.screenH → ∃ t, exec .comp s = .next t ∧
    t.pri = s.compositeTiles.pri ∧
    (∀ n < s.cfg.nspr, ∀ pen, recordPen s.cfg s.flip s.spr t.pri n px py = some pen →
      (∀ m < n, recordPen s.cfg s.flip s.spr t.pri m px py = none) → Memory.read t.fb (pixelKey s.cfg px py) = pen) ∧
    ((∀ n < s.cfg.nspr, recordPen s.cfg s.flip s.spr t.pri n px py = none) →
      Memory.read t.fb (pixelKey s.cfg px py) = Memory.read s.compositeTiles.fb (pixelKey s.cfg px py))

/-- With every record disabled the frame is the tile picture, whatever else sprite RAM holds (R191). -/
def Obligations.DisabledSpritesDrawNothing : Prop :=
  ∀ s : State, s.wf = true → (∀ n < s.cfg.nspr, (spriteRecord s.cfg s.spr n).enable = false) →
    ∃ t, exec .comp s = .next t ∧ t.fb = s.compositeTiles.fb

/-- The fields of a 4-byte record in numbers (R28). -/
def Obligations.FourByteRecordFields : Prop :=
  ∀ (cfg : Cfg) (spr : Memory) (n : Nat), cfg.stride = .four →
    let r := spriteRecord cfg spr n
    let b (k : Nat) := (Memory.read spr (4 * n + k)).toNat
    r.x = b 0 ∧ r.y = b 1 ∧ r.code = b 2 ∧ r.color = b 3 % 16 ∧ r.enable = decide (b 3 / 128 = 1) ∧
    r.flipY = decide (b 3 / 64 % 2 = 1) ∧ r.flipX = decide (b 3 / 32 % 2 = 1) ∧ r.sizeX = 0 ∧ r.sizeY = 0 ∧ r.priorityMask = 0

/-- The fields of a 16-byte record in numbers (R29, R62). -/
def Obligations.SixteenByteRecordFields : Prop :=
  ∀ (cfg : Cfg) (spr : Memory) (n : Nat), cfg.stride = .sixteen →
    let r := spriteRecord cfg spr n
    let b (k : Nat) := (Memory.read spr (16 * n + k)).toNat
    let w (k : Nat) := 256 * b (k + 1) + b k
    let sext (v : Nat) : Int := if 32768 ≤ v then (v : Int) - 65536 else v
    r.x = sext (w 0) ∧ r.y = sext (w 2) ∧ r.code = w 4 ∧ r.color = b 6 % 16 ∧ r.enable = decide (b 7 / 128 = 1) ∧
    r.flipY = decide (b 7 / 64 % 2 = 1) ∧ r.flipX = decide (b 7 / 32 % 2 = 1) ∧ r.sizeY = b 7 / 4 % 4 ∧ r.sizeX = b 7 % 4 ∧
    r.priorityMask.toNat = b 8

/-- `SpritePlace` (R193): the flipped place covers the mirror of the unflipped one's columns and rows, and toggles both flips. -/
def Obligations.SpritePlaceIsMirrored : Prop :=
  ∀ (cfg : Cfg) (x y : Int) (w h : Nat) (fx fy : Bool),
    spritePlace cfg false x y w h fx fy = ⟨x, y, fx, fy⟩ ∧
    (spritePlace cfg true x y w h fx fy).fx = !fx ∧ (spritePlace cfg true x y w h fx fy).fy = !fy ∧
    (∀ d < w, (cfg.screenW : Int) - 1 - (x + d) = (spritePlace cfg true x y w h fx fy).sx + (w - 1 - d : Nat)) ∧
    (∀ d < h, (cfg.screenH : Int) - 1 - (y + d) = (spritePlace cfg true x y w h fx fy).sy + (h - 1 - d : Nat))

/-- The default `LAYOUT` interleaves the bits of `cx` and `cy` (R196), and a sprite of a power-of-two size clears the code bits its
cells use (R195). The table is the spec's own addition from general knowledge (G1, log 11). -/
def Obligations.DefaultLayoutInterleaves : Prop :=
  ∀ cfg : Cfg, cfg.layout = defaultLayout →
    (∀ cy < 8, ∀ cx < 8, cfg.layoutAt cy cx =
      cx % 2 + 2 * (cy % 2) + 4 * (cx / 2 % 2) + 8 * (cy / 2 % 2) + 16 * (cx / 4) + 32 * (cy / 4)) ∧
    (∀ a < 4, ∀ b < 4, layoutMask cfg (2 ^ a) (2 ^ b) =
      [0, 1, 5, 21].getD a 0 + 2 * [0, 1, 5, 21].getD b 0) ∧
    (∀ code cx cy, cx < 2 → cy < 2 → cellCode cfg code 2 2 cx cy = (code / 4 * 4 + (2 * cy + cx)) % cfg.nspat)

/-! ### The numbers behind the layer copy and the sprite pass -/

/-- `CopyLayer` reads `BMP[l][v][u]` with `(u, v)` of `LayerSource` (R167, R169): `u` from `x`, `SCX`, `BW` and `SCREEN_W`, `v` from `y`,
`SCY`, `BH` and `SCREEN_H`. -/
def Obligations.LayerPenReadsTheScrolledSource : Prop :=
  ∀ (cfg : Cfg) (flip : Bool) (c : LayerCfg) (y : Layer) (px py : Nat), c.ok = true → ∃ u v : Nat,
    layerPen cfg flip c y px py = Memory.read y.bmp (v * (c.mapW * c.tileW) + u) ∧ u < c.mapW * c.tileW ∧ v < c.mapH * c.tileH ∧
    (flip = false → u = (px + y.scx.toNat) % (c.mapW * c.tileW) ∧ v = (py + y.scy.toNat) % (c.mapH * c.tileH)) ∧
    (flip = true →
      (u : Int) = ((px : Int) - y.scx.toNat + (c.mapW * c.tileW : Nat) - cfg.screenW) % (c.mapW * c.tileW : Nat) ∧
      (v : Int) = ((py : Int) - y.scy.toNat + (c.mapH * c.tileH : Nat) - cfg.screenH) % (c.mapH * c.tileH : Nat))

/-- What is drawn for a record, from its bytes (R191, R192): cells across and down, code, colour and priority mask, for both strides. -/
def Obligations.SpriteImageOfRecordBytes : Prop :=
  ∀ (cfg : Cfg) (spr : Memory) (n : Nat),
    let g := spriteImage (spriteRecord cfg spr n)
    let b (k : Nat) := (Memory.read spr (cfg.stride.bytes * n + k)).toNat
    (cfg.stride = .four → g.nx = 1 ∧ g.ny = 1 ∧ g.code = b 2 ∧ g.color = b 3 % 16 ∧ g.pmask.toNat = 0) ∧
    (cfg.stride = .sixteen → g.nx = 2 ^ (b 7 % 4) ∧ g.ny = 2 ^ (b 7 / 4 % 4) ∧ g.code = 256 * b 5 + b 4 ∧ g.color = b 6 % 16 ∧
      g.pmask.toNat = b 8) ∧
    g.nx ∈ [1, 2, 4, 8] ∧ g.ny ∈ [1, 2, 4, 8]

/-- One record of the list (R191, R201): nothing when it is disabled; else one draw at its place under the flip, and for a record of
`DOUBLE_DRAW` a second one at `((sx + 128) mod 256, (sy + 128) mod 256)` with the same flips and picture. -/
def Obligations.RecordIsDrawnOnceOrTwice : Prop :=
  ∀ (cfg : Cfg) (flip : Bool) (spr pri fb : Memory) (n : Nat),
    let r := spriteRecord cfg spr n
    let g : SpriteImage := ⟨2 ^ r.sizeX, 2 ^ r.sizeY, r.code, r.color, r.priorityMask⟩
    ∃ p : SpritePlace,
      (flip = false → p = ⟨r.x, r.y, r.flipX, r.flipY⟩) ∧
      (flip = true → p = ⟨cfg.screenW - 2 ^ r.sizeX * cfg.cellW - r.x, cfg.screenH - 2 ^ r.sizeY * cfg.cellH - r.y, !r.flipX, !r.flipY⟩) ∧
      (r.enable = false → drawSpriteRecord cfg flip spr pri n fb = fb) ∧
      (r.enable = true → n ∉ cfg.doubleDraw → drawSpriteRecord cfg flip spr pri n fb = drawSpriteAt cfg pri p g fb) ∧
      (r.enable = true → n ∈ cfg.doubleDraw → drawSpriteRecord cfg flip spr pri n fb =
        drawSpriteAt cfg pri ⟨(p.sx + 128) % 256, (p.sy + 128) % 256, p.fx, p.fy⟩ g (drawSpriteAt cfg pri p g fb))
end

