-- ==== Sys2Proof/Laws/Memory.lean ====
section
/-!
SUPPORT. Laws/Memory.lean: what each memory and dirty-set operation can do, said once: read after write, the canonical form kept,
equal reads make equal data.
-/

namespace Sys2Proof

variable {m : Memory} {lo hi n a b k : Nat} {v : Byte}

theorem Memory.wfFrom_cons {e : Host.Cell} :
    Memory.wfFrom lo hi (e :: m) = true ↔ lo ≤ e.1 ∧ e.1 < hi ∧ e.2 ≠ Memory.unlisted ∧ Memory.wfFrom (e.1 + 1) hi m = true := by
  obtain ⟨k, w⟩ := e
  simp [Memory.wfFrom, and_assoc]

theorem Memory.wfFrom_mono {lo' : Nat} (h : Memory.wfFrom lo hi m = true) (hl : lo' ≤ lo) : Memory.wfFrom lo' hi m = true := by
  cases m with
  | nil => rfl
  | cons e m =>
    rw [Memory.wfFrom_cons] at h ⊢
    exact ⟨hl.trans h.1, h.2⟩

@[simp] theorem Memory.read_nil (a : Nat) : Memory.read [] a = Memory.unlisted := rfl

theorem Memory.read_cons (e : Host.Cell) (m : Memory) (a : Nat) :
    Memory.read (e :: m) a = if a = e.1 then e.2 else Memory.read m a := by
  obtain ⟨k, w⟩ := e
  by_cases h : a = k <;> simp [Memory.read, Memory.lookup, h]

/-- Below the lowest listed index nothing is listed. -/
theorem Memory.read_below (h : Memory.wfFrom lo hi m = true) (ha : a < lo) : Memory.read m a = Memory.unlisted := by
  induction m generalizing lo with
  | nil => rfl
  | cons e m ih =>
    rw [Memory.wfFrom_cons] at h
    rw [Memory.read_cons, if_neg (by omega)]
    exact ih h.2.2.2 (by omega)

/-- Outside the space nothing is listed. -/
theorem Memory.read_above (h : Memory.wfFrom lo hi m = true) (ha : hi ≤ a) : Memory.read m a = Memory.unlisted := by
  induction m generalizing lo with
  | nil => rfl
  | cons e m ih =>
    rw [Memory.wfFrom_cons] at h
    rw [Memory.read_cons, if_neg (by omega)]
    exact ih h.2.2.2

theorem Memory.read_write_from (h : Memory.wfFrom lo hi m = true) (a k : Nat) (v : Byte) :
    Memory.read (Memory.write m a v) k = if k = a then v else Memory.read m k := by
  induction m generalizing lo with
  | nil =>
    by_cases hv : v = Memory.unlisted <;> by_cases hk : k = a <;> simp [Memory.write, Memory.read_cons, hv, hk]
  | cons e m ih =>
    obtain ⟨j, w⟩ := e
    rw [Memory.wfFrom_cons] at h
    have hlow : Memory.read m a = Memory.unlisted ∨ j < a := by
      by_cases hja : j < a
      · exact .inr hja
      · exact .inl (Memory.read_below h.2.2.2 (by simp; omega))
    by_cases hk : k = a
    · subst hk
      rw [if_pos rfl, Memory.write]
      split_ifs with h1 hv h2 hv
      · rw [Memory.read_cons, if_neg (by simp; omega), hv]
        exact hlow.resolve_right (by omega)
      · simp [Memory.read_cons]
      · rw [hv]
        exact hlow.resolve_right (by omega)
      · simp [Memory.read_cons]
      · rw [Memory.read_cons, if_neg h2, ih h.2.2.2, if_pos rfl]
    · rw [if_neg hk, Memory.write]
      split_ifs with h1 hv h2 hv
      · rfl
      · rw [Memory.read_cons, if_neg hk]
      · rw [Memory.read_cons, if_neg (by simp; omega)]
      · rw [Memory.read_cons, if_neg hk, Memory.read_cons, if_neg (by simp; omega)]
      · rw [Memory.read_cons, Memory.read_cons, ih h.2.2.2, if_neg hk]

/-- Read after write: the written index reads the value, every other index reads as before. -/
theorem Memory.read_write (h : Memory.wf n m = true) (a k : Nat) (v : Byte) :
    Memory.read (Memory.write m a v) k = if k = a then v else Memory.read m k :=
  Memory.read_write_from h a k v

theorem Memory.wfFrom_write (h : Memory.wfFrom lo hi m = true) (hl : lo ≤ a) (hh : a < hi) (v : Byte) :
    Memory.wfFrom lo hi (Memory.write m a v) = true := by
  induction m generalizing lo with
  | nil =>
    by_cases hv : v = Memory.unlisted
    · simp [Memory.write, hv, Memory.wfFrom]
    · simp [Memory.write, hv, Memory.wfFrom, hl, hh]
  | cons e m ih =>
    obtain ⟨j, w⟩ := e
    rw [Memory.wfFrom_cons] at h
    simp only [Memory.write]
    split_ifs with h1 hv h2 hv
    · exact Memory.wfFrom_cons.2 h
    · exact Memory.wfFrom_cons.2 ⟨hl, hh, hv, Memory.wfFrom_cons.2 ⟨h1, h.2⟩⟩
    · exact Memory.wfFrom_mono h.2.2.2 (by simp; omega)
    · subst h2
      exact Memory.wfFrom_cons.2 ⟨hl, hh, hv, h.2.2.2⟩
    · exact Memory.wfFrom_cons.2 ⟨h.1, h.2.1, h.2.2.1, ih h.2.2.2 (by simp; omega)⟩

/-- A write inside the space keeps the canonical form. -/
theorem Memory.wf_write (h : Memory.wf n m = true) (ha : a < n) (v : Byte) : Memory.wf n (Memory.write m a v) = true :=
  Memory.wfFrom_write h (Nat.zero_le a) ha v

@[simp] theorem Memory.wf_nil (n : Nat) : Memory.wf n [] = true := rfl

/-- Equal reads make equal data. -/
theorem Memory.ext_read_from {m₁ m₂ : Memory} (h₁ : Memory.wfFrom lo hi m₁ = true) (h₂ : Memory.wfFrom lo hi m₂ = true)
    (h : ∀ a, lo ≤ a → a < hi → Memory.read m₁ a = Memory.read m₂ a) : m₁ = m₂ := by
  induction m₁ generalizing lo m₂ with
  | nil =>
    cases m₂ with
    | nil => rfl
    | cons e m₂ =>
      rw [Memory.wfFrom_cons] at h₂
      have := h e.1 h₂.1 h₂.2.1
      rw [Memory.read_cons, if_pos rfl] at this
      exact absurd this.symm h₂.2.2.1
  | cons e m₁ ih =>
    rw [Memory.wfFrom_cons] at h₁
    cases m₂ with
    | nil =>
      have := h e.1 h₁.1 h₁.2.1
      rw [Memory.read_cons, if_pos rfl] at this
      exact absurd this h₁.2.2.1
    | cons f m₂ =>
      rw [Memory.wfFrom_cons] at h₂
      have hk : e.1 = f.1 := by
        rcases lt_trichotomy e.1 f.1 with hlt | heq | hgt
        · have := h e.1 h₁.1 h₁.2.1
          rw [Memory.read_cons, if_pos rfl, Memory.read_cons, if_neg (by omega), Memory.read_below h₂.2.2.2 (by omega)] at this
          exact absurd this h₁.2.2.1
        · exact heq
        · have := h f.1 h₂.1 h₂.2.1
          rw [Memory.read_cons f, if_pos rfl, Memory.read_cons, if_neg (by omega), Memory.read_below h₁.2.2.2 (by omega)] at this
          exact absurd this.symm h₂.2.2.1
      have hv : e.2 = f.2 := by
        have := h e.1 h₁.1 h₁.2.1
        rwa [Memory.read_cons, if_pos rfl, Memory.read_cons, if_pos hk] at this
      have hef : e = f := Prod.ext hk hv
      subst hef
      congr 1
      refine ih h₁.2.2.2 h₂.2.2.2 (fun a hl hh => ?_)
      have := h a (by omega) hh
      rwa [Memory.read_cons, Memory.read_cons, if_neg (by omega), if_neg (by omega)] at this

theorem Memory.ext_read {m₁ m₂ : Memory} (h₁ : Memory.wf n m₁ = true) (h₂ : Memory.wf n m₂ = true)
    (h : ∀ a < n, Memory.read m₁ a = Memory.read m₂ a) : m₁ = m₂ :=
  Memory.ext_read_from h₁ h₂ (fun a _ ha => h a ha)

/-- Writing the byte already there changes nothing (R65). -/
theorem Memory.write_same (h : Memory.wf n m = true) (ha : a < n) (hv : Memory.read m a = v) : Memory.write m a v = m :=
  Memory.ext_read (Memory.wf_write h ha v) h (fun k _ => by
    rw [Memory.read_write h]
    split_ifs with hk
    · rw [hk, hv]
    · rfl)

/-! ### Many writes -/

@[simp] theorem Memory.writeMany_nil (m : Memory) : Memory.writeMany m [] = m := rfl

theorem Memory.writeMany_cons (m : Memory) (c : Host.Cell) (cs : List Host.Cell) :
    Memory.writeMany m (c :: cs) = Memory.writeMany (Memory.write m c.1 c.2) cs := rfl

theorem Memory.wf_writeMany {cs : List Host.Cell} (h : Memory.wf n m = true) (hc : ∀ c ∈ cs, c.1 < n) :
    Memory.wf n (Memory.writeMany m cs) = true := by
  induction cs generalizing m with
  | nil => exact h
  | cons c cs ih =>
    rw [Memory.writeMany_cons]
    exact ih (Memory.wf_write h (hc c (by simp)) c.2) (fun d hd => hc d (by simp [hd]))

/-- An index no cell names reads as before. -/
theorem Memory.read_writeMany_other {cs : List Host.Cell} (h : Memory.wf n m = true) (hc : ∀ c ∈ cs, c.1 < n)
    (hk : ∀ c ∈ cs, c.1 ≠ k) : Memory.read (Memory.writeMany m cs) k = Memory.read m k := by
  induction cs generalizing m with
  | nil => rfl
  | cons c cs ih =>
    rw [Memory.writeMany_cons, ih (Memory.wf_write h (hc c (by simp)) c.2) (fun d hd => hc d (by simp [hd]))
      (fun d hd => hk d (by simp [hd])), Memory.read_write h, if_neg (Ne.symm (hk c (by simp)))]

/-- An index that some cell names, every such cell with the same byte, reads that byte. -/
theorem Memory.read_writeMany_same {cs : List Host.Cell} (h : Memory.wf n m = true) (hc : ∀ c ∈ cs, c.1 < n)
    (hv : ∀ c ∈ cs, c.1 = k → c.2 = v) (hk : ∃ c ∈ cs, c.1 = k) : Memory.read (Memory.writeMany m cs) k = v := by
  induction cs generalizing m with
  | nil => simp at hk
  | cons c cs ih =>
    have hw := Memory.wf_write h (hc c (by simp)) c.2
    have hc' : ∀ d ∈ cs, d.1 < n := fun d hd => hc d (by simp [hd])
    rw [Memory.writeMany_cons]
    by_cases hin : ∃ d ∈ cs, d.1 = k
    · exact ih hw hc' (fun d hd => hv d (by simp [hd])) hin
    · have hck : c.1 = k := by
        obtain ⟨d, hd, hdk⟩ := hk
        rcases List.mem_cons.1 hd with rfl | hd
        · exact hdk
        · exact absurd ⟨d, hd, hdk⟩ hin
      rw [Memory.read_writeMany_other hw hc' (fun d hd hdk => hin ⟨d, hd, hdk⟩), Memory.read_write h, if_pos hck.symm]
      exact hv c (by simp) hck

/-! ### A space with every entry written -/

theorem Memory.tabulate_succ (n : Nat) (f : Nat → Byte) :
    Memory.tabulate (n + 1) f = Memory.tabulate n f ++ (if f n = Memory.unlisted then [] else [(n, f n)]) := by
  by_cases h : f n = Memory.unlisted <;> simp [Memory.tabulate, List.range_succ, List.filterMap_append, h]

theorem Memory.wfFrom_append {m₁ m₂ : Memory} {mid : Nat} (h₁ : Memory.wfFrom lo mid m₁ = true) (hl : lo ≤ mid)
    (h₂ : Memory.wfFrom mid hi m₂ = true) (hm : mid ≤ hi) : Memory.wfFrom lo hi (m₁ ++ m₂) = true := by
  induction m₁ generalizing lo with
  | nil => exact Memory.wfFrom_mono h₂ hl
  | cons e m₁ ih =>
    rw [Memory.wfFrom_cons] at h₁
    rw [List.cons_append, Memory.wfFrom_cons]
    exact ⟨h₁.1, by omega, h₁.2.2.1, ih h₁.2.2.2 (by omega)⟩

@[simp] theorem Memory.wf_tabulate (n : Nat) (f : Nat → Byte) : Memory.wf n (Memory.tabulate n f) = true := by
  induction n with
  | zero => rfl
  | succ n ih =>
    rw [Memory.tabulate_succ]
    refine Memory.wfFrom_append ih (Nat.zero_le n) ?_ (Nat.le_succ n)
    split_ifs with h
    · rfl
    · simp [Memory.wfFrom, h]

theorem Memory.read_append {m₁ m₂ : Memory} {mid : Nat} (h₁ : Memory.wfFrom lo mid m₁ = true) (h₂ : Memory.wfFrom mid hi m₂ = true)
    (k : Nat) : Memory.read (m₁ ++ m₂) k = if k < mid then Memory.read m₁ k else Memory.read m₂ k := by
  induction m₁ generalizing lo with
  | nil =>
    split_ifs with hk
    · exact Memory.read_below h₂ hk
    · rfl
  | cons e m₁ ih =>
    rw [Memory.wfFrom_cons] at h₁
    rw [List.cons_append, Memory.read_cons, ih h₁.2.2.2, Memory.read_cons]
    by_cases hk : k = e.1
    · simp [hk, h₁.2.1]
    · simp [hk]

/-- Entry `a` of the space is `f a`. -/
theorem Memory.read_tabulate (f : Nat → Byte) (h : a < n) : Memory.read (Memory.tabulate n f) a = f a := by
  induction n with
  | zero => omega
  | succ n ih =>
    have hm : Memory.wfFrom n (n + 1) (if f n = Memory.unlisted then [] else [(n, f n)]) = true := by
      split_ifs with h0
      · rfl
      · simp [Memory.wfFrom, h0]
    rw [Memory.tabulate_succ, Memory.read_append (Memory.wf_tabulate n f) hm]
    split_ifs with ha h0
    · exact ih ha
    · rw [Memory.read_nil, ← h0, show a = n by omega]
    · rw [Memory.read_cons, if_pos (by simp; omega), show a = n by omega]

/-- Every entry the byte of an unlisted index: nothing is listed. -/
theorem Memory.tabulate_unlisted (n : Nat) : Memory.tabulate n (fun _ => Memory.unlisted) = [] := by
  simp [Memory.tabulate]

/-! ### The dirty set -/

theorem DirtySet.has_iff (d : DirtySet) (i : Nat) : DirtySet.has d i = true ↔ i ∈ d := by
  simp [DirtySet.has]

@[simp] theorem DirtySet.has_nil (i : Nat) : DirtySet.has [] i = false := rfl

/-- Marking puts the index into the set and changes no other membership. -/
theorem DirtySet.has_mark (d : DirtySet) (i j : Nat) :
    DirtySet.has (DirtySet.mark d i) j = true ↔ j = i ∨ DirtySet.has d j = true := by
  simp only [DirtySet.has_iff]
  induction d with
  | nil => simp [DirtySet.mark]
  | cons k d ih =>
    simp only [DirtySet.mark]
    split_ifs with h1 h2
    · simp
    · subst h2; simp
    · simp [ih, or_left_comm]

/-- Clearing takes the index out of the set and changes no other membership. -/
theorem DirtySet.has_clear (d : DirtySet) (i j : Nat) :
    DirtySet.has (DirtySet.clear d i) j = true ↔ j ≠ i ∧ DirtySet.has d j = true := by
  simp only [DirtySet.has_iff]
  induction d with
  | nil => simp [DirtySet.clear]
  | cons k d ih =>
    simp only [DirtySet.clear]
    split_ifs with h
    · subst h
      rw [ih, List.mem_cons]
      constructor
      · rintro ⟨h1, h2⟩
        exact ⟨h1, .inr h2⟩
      · rintro ⟨h1, h2⟩
        exact ⟨h1, h2.resolve_left h1⟩
    · rw [List.mem_cons, ih, List.mem_cons]
      constructor
      · rintro (rfl | ⟨h1, h2⟩)
        · exact ⟨Ne.symm h, .inl rfl⟩
        · exact ⟨h1, .inr h2⟩
      · rintro ⟨h1, rfl | h2⟩
        · exact .inl rfl
        · exact .inr ⟨h1, h2⟩

/-- The full set holds exactly the indices below `n`. -/
theorem DirtySet.has_full (n i : Nat) : DirtySet.has (DirtySet.full n) i = true ↔ i < n := by
  simp [DirtySet.has_iff, DirtySet.full]

theorem DirtySet.wfFrom_cons {d : DirtySet} {i : Nat} :
    DirtySet.wfFrom lo hi (i :: d) = true ↔ lo ≤ i ∧ i < hi ∧ DirtySet.wfFrom (i + 1) hi d = true := by
  simp [DirtySet.wfFrom, and_assoc]

theorem DirtySet.wfFrom_mono {d : DirtySet} {lo' : Nat} (h : DirtySet.wfFrom lo hi d = true) (hl : lo' ≤ lo) :
    DirtySet.wfFrom lo' hi d = true := by
  cases d with
  | nil => rfl
  | cons i d =>
    rw [DirtySet.wfFrom_cons] at h ⊢
    exact ⟨hl.trans h.1, h.2⟩

theorem DirtySet.wfFrom_mark {d : DirtySet} {i : Nat} (h : DirtySet.wfFrom lo hi d = true) (hl : lo ≤ i) (hh : i < hi) :
    DirtySet.wfFrom lo hi (DirtySet.mark d i) = true := by
  induction d generalizing lo with
  | nil => simp [DirtySet.mark, DirtySet.wfFrom, hl, hh]
  | cons k d ih =>
    have h' := DirtySet.wfFrom_cons.1 h
    simp only [DirtySet.mark]
    split_ifs with h1 h2
    · exact DirtySet.wfFrom_cons.2 ⟨hl, hh, DirtySet.wfFrom_cons.2 ⟨h1, h'.2⟩⟩
    · exact h
    · exact DirtySet.wfFrom_cons.2 ⟨h'.1, h'.2.1, ih h'.2.2 (by omega)⟩

theorem DirtySet.wfFrom_clear {d : DirtySet} (h : DirtySet.wfFrom lo hi d = true) (i : Nat) :
    DirtySet.wfFrom lo hi (DirtySet.clear d i) = true := by
  induction d generalizing lo with
  | nil => rfl
  | cons k d ih =>
    have h' := DirtySet.wfFrom_cons.1 h
    simp only [DirtySet.clear]
    split_ifs with h1
    · exact DirtySet.wfFrom_mono (ih h'.2.2) (by omega)
    · exact DirtySet.wfFrom_cons.2 ⟨h'.1, h'.2.1, ih h'.2.2⟩

theorem DirtySet.wf_mark {d : DirtySet} {i : Nat} (h : DirtySet.wf n d = true) (hi : i < n) :
    DirtySet.wf n (DirtySet.mark d i) = true :=
  DirtySet.wfFrom_mark h (Nat.zero_le i) hi

theorem DirtySet.wf_clear {d : DirtySet} (h : DirtySet.wf n d = true) (i : Nat) : DirtySet.wf n (DirtySet.clear d i) = true :=
  DirtySet.wfFrom_clear h i

theorem DirtySet.wfFrom_range' (s n : Nat) : DirtySet.wfFrom s (s + n) (List.range' s n) = true := by
  induction n generalizing s with
  | zero => rfl
  | succ n ih =>
    rw [List.range'_succ, DirtySet.wfFrom_cons]
    exact ⟨le_refl s, by omega, by rw [show s + (n + 1) = s + 1 + n by omega]; exact ih (s + 1)⟩

@[simp] theorem DirtySet.wf_full (n : Nat) : DirtySet.wf n (DirtySet.full n) = true := by
  have := DirtySet.wfFrom_range' 0 n
  rwa [Nat.zero_add, ← List.range_eq_range'] at this

/-- A member of a well-formed set is below its bound. -/
theorem DirtySet.lt_of_has {d : DirtySet} {i : Nat} (h : DirtySet.wfFrom lo hi d = true) (hm : DirtySet.has d i = true) :
    lo ≤ i ∧ i < hi := by
  rw [DirtySet.has_iff] at hm
  induction d generalizing lo with
  | nil => simp at hm
  | cons k d ih =>
    have h' := DirtySet.wfFrom_cons.1 h
    rcases List.mem_cons.1 hm with rfl | hm
    · exact ⟨h'.1, h'.2.1⟩
    · have := ih h'.2.2 hm
      exact ⟨by omega, this.2⟩

/-- A set that holds nothing is empty. -/
theorem DirtySet.eq_nil_of_forall {d : DirtySet} (h : ∀ i, DirtySet.has d i ≠ true) : d = [] := by
  cases d with
  | nil => rfl
  | cons k d => exact absurd ((DirtySet.has_iff (k :: d) k).2 (by simp)) (h k)

end Sys2Proof
end

