-- ==== Sys2Proof/Laws/State.lean ====
section
/-!
SUPPORT. Laws/State.lean: one lemma per field of `State` per named update, so that no proof unfolds a record update.
-/

namespace Sys2Proof.Machine

variable (s : State)

/-! ### `respond` (R12, R96) -/

@[simp] theorem State.respond_cfg (r : Option Byte) : (s.respond r).cfg = s.cfg := rfl
@[simp] theorem State.respond_built (r : Option Byte) : (s.respond r).built = s.built := rfl
@[simp] theorem State.respond_layers (r : Option Byte) : (s.respond r).layers = s.layers := rfl
@[simp] theorem State.respond_spr (r : Option Byte) : (s.respond r).spr = s.spr := rfl
@[simp] theorem State.respond_flip (r : Option Byte) : (s.respond r).flip = s.flip := rfl
@[simp] theorem State.respond_fullref (r : Option Byte) : (s.respond r).fullref = s.fullref := rfl
@[simp] theorem State.respond_palchg (r : Option Byte) : (s.respond r).palchg = s.palchg := rfl
@[simp] theorem State.respond_fb (r : Option Byte) : (s.respond r).fb = s.fb := rfl
@[simp] theorem State.respond_pri (r : Option Byte) : (s.respond r).pri = s.pri := rfl
@[simp] theorem State.respond_port (r : Option Byte) : (s.respond r).port = s.port := rfl
@[simp] theorem State.respond_rsp (r : Option Byte) : (s.respond r).rsp = r := rfl
@[simp] theorem State.respond_powerUps (r : Option Byte) : (s.respond r).powerUps = s.powerUps := rfl

/-! ### `updLayer` (R128) -/

@[simp] theorem State.updLayer_cfg (l : Nat) (f : Layer → Layer) : (s.updLayer l f).cfg = s.cfg := rfl
@[simp] theorem State.updLayer_built (l : Nat) (f : Layer → Layer) : (s.updLayer l f).built = s.built := rfl
@[simp] theorem State.updLayer_layers (l : Nat) (f : Layer → Layer) : (s.updLayer l f).layers = s.layers.modify l f := rfl
@[simp] theorem State.updLayer_spr (l : Nat) (f : Layer → Layer) : (s.updLayer l f).spr = s.spr := rfl
@[simp] theorem State.updLayer_flip (l : Nat) (f : Layer → Layer) : (s.updLayer l f).flip = s.flip := rfl
@[simp] theorem State.updLayer_fullref (l : Nat) (f : Layer → Layer) : (s.updLayer l f).fullref = s.fullref := rfl
@[simp] theorem State.updLayer_palchg (l : Nat) (f : Layer → Layer) : (s.updLayer l f).palchg = s.palchg := rfl
@[simp] theorem State.updLayer_fb (l : Nat) (f : Layer → Layer) : (s.updLayer l f).fb = s.fb := rfl
@[simp] theorem State.updLayer_pri (l : Nat) (f : Layer → Layer) : (s.updLayer l f).pri = s.pri := rfl
@[simp] theorem State.updLayer_port (l : Nat) (f : Layer → Layer) : (s.updLayer l f).port = s.port := rfl
@[simp] theorem State.updLayer_rsp (l : Nat) (f : Layer → Layer) : (s.updLayer l f).rsp = s.rsp := rfl
@[simp] theorem State.updLayer_powerUps (l : Nat) (f : Layer → Layer) : (s.updLayer l f).powerUps = s.powerUps := rfl

/-! ### `writeFlip` (R141) -/

@[simp] theorem State.writeFlip_cfg (b : Bool) : (s.writeFlip b).cfg = s.cfg := rfl
@[simp] theorem State.writeFlip_built (b : Bool) : (s.writeFlip b).built = s.built := rfl
@[simp] theorem State.writeFlip_layers (b : Bool) : (s.writeFlip b).layers = s.layers := rfl
@[simp] theorem State.writeFlip_spr (b : Bool) : (s.writeFlip b).spr = s.spr := rfl
@[simp] theorem State.writeFlip_flip (b : Bool) : (s.writeFlip b).flip = b := rfl
@[simp] theorem State.writeFlip_fullref (b : Bool) : (s.writeFlip b).fullref = (s.fullref || (s.flip != b)) := rfl
@[simp] theorem State.writeFlip_palchg (b : Bool) : (s.writeFlip b).palchg = s.palchg := rfl
@[simp] theorem State.writeFlip_fb (b : Bool) : (s.writeFlip b).fb = s.fb := rfl
@[simp] theorem State.writeFlip_pri (b : Bool) : (s.writeFlip b).pri = s.pri := rfl
@[simp] theorem State.writeFlip_port (b : Bool) : (s.writeFlip b).port = s.port := rfl
@[simp] theorem State.writeFlip_rsp (b : Bool) : (s.writeFlip b).rsp = s.rsp := rfl
@[simp] theorem State.writeFlip_powerUps (b : Bool) : (s.writeFlip b).powerUps = s.powerUps := rfl

/-! ### `requestRefresh` (R144) -/

@[simp] theorem State.requestRefresh_cfg : s.requestRefresh.cfg = s.cfg := rfl
@[simp] theorem State.requestRefresh_built : s.requestRefresh.built = s.built := rfl
@[simp] theorem State.requestRefresh_layers : s.requestRefresh.layers = s.layers := rfl
@[simp] theorem State.requestRefresh_spr : s.requestRefresh.spr = s.spr := rfl
@[simp] theorem State.requestRefresh_flip : s.requestRefresh.flip = s.flip := rfl
@[simp] theorem State.requestRefresh_fullref : s.requestRefresh.fullref = true := rfl
@[simp] theorem State.requestRefresh_palchg : s.requestRefresh.palchg = s.palchg := rfl
@[simp] theorem State.requestRefresh_fb : s.requestRefresh.fb = s.fb := rfl
@[simp] theorem State.requestRefresh_pri : s.requestRefresh.pri = s.pri := rfl
@[simp] theorem State.requestRefresh_port : s.requestRefresh.port = s.port := rfl
@[simp] theorem State.requestRefresh_rsp : s.requestRefresh.rsp = s.rsp := rfl
@[simp] theorem State.requestRefresh_powerUps : s.requestRefresh.powerUps = s.powerUps := rfl

/-! ### `notePalette` (R145) -/

@[simp] theorem State.notePalette_cfg : s.notePalette.cfg = s.cfg := rfl
@[simp] theorem State.notePalette_built : s.notePalette.built = s.built := rfl
@[simp] theorem State.notePalette_layers : s.notePalette.layers = s.layers := rfl
@[simp] theorem State.notePalette_spr : s.notePalette.spr = s.spr := rfl
@[simp] theorem State.notePalette_flip : s.notePalette.flip = s.flip := rfl
@[simp] theorem State.notePalette_fullref : s.notePalette.fullref = s.fullref := rfl
@[simp] theorem State.notePalette_palchg : s.notePalette.palchg = true := rfl
@[simp] theorem State.notePalette_fb : s.notePalette.fb = s.fb := rfl
@[simp] theorem State.notePalette_pri : s.notePalette.pri = s.pri := rfl
@[simp] theorem State.notePalette_port : s.notePalette.port = s.port := rfl
@[simp] theorem State.notePalette_rsp : s.notePalette.rsp = s.rsp := rfl
@[simp] theorem State.notePalette_powerUps : s.notePalette.powerUps = s.powerUps := rfl

/-! ### `writeSprite` (R124) -/

@[simp] theorem State.writeSprite_cfg (off : BitVec 16) (v : Byte) : (s.writeSprite off v).cfg = s.cfg := rfl
@[simp] theorem State.writeSprite_built (off : BitVec 16) (v : Byte) : (s.writeSprite off v).built = s.built := rfl
@[simp] theorem State.writeSprite_layers (off : BitVec 16) (v : Byte) : (s.writeSprite off v).layers = s.layers := rfl
@[simp] theorem State.writeSprite_spr (off : BitVec 16) (v : Byte) : (s.writeSprite off v).spr = Memory.write s.spr (spriteIndex s.cfg off) v := rfl
@[simp] theorem State.writeSprite_flip (off : BitVec 16) (v : Byte) : (s.writeSprite off v).flip = s.flip := rfl
@[simp] theorem State.writeSprite_fullref (off : BitVec 16) (v : Byte) : (s.writeSprite off v).fullref = s.fullref := rfl
@[simp] theorem State.writeSprite_palchg (off : BitVec 16) (v : Byte) : (s.writeSprite off v).palchg = s.palchg := rfl
@[simp] theorem State.writeSprite_fb (off : BitVec 16) (v : Byte) : (s.writeSprite off v).fb = s.fb := rfl
@[simp] theorem State.writeSprite_pri (off : BitVec 16) (v : Byte) : (s.writeSprite off v).pri = s.pri := rfl
@[simp] theorem State.writeSprite_port (off : BitVec 16) (v : Byte) : (s.writeSprite off v).port = s.port := rfl
@[simp] theorem State.writeSprite_rsp (off : BitVec 16) (v : Byte) : (s.writeSprite off v).rsp = s.rsp := rfl
@[simp] theorem State.writeSprite_powerUps (off : BitVec 16) (v : Byte) : (s.writeSprite off v).powerUps = s.powerUps := rfl

/-! ### `issueFirst` (R90) -/

@[simp] theorem State.issueFirst_cfg (p : PortInput) : (s.issueFirst p).cfg = s.cfg := rfl
@[simp] theorem State.issueFirst_built (p : PortInput) : (s.issueFirst p).built = s.built := rfl
@[simp] theorem State.issueFirst_layers (p : PortInput) : (s.issueFirst p).layers = s.layers := rfl
@[simp] theorem State.issueFirst_spr (p : PortInput) : (s.issueFirst p).spr = s.spr := rfl
@[simp] theorem State.issueFirst_flip (p : PortInput) : (s.issueFirst p).flip = s.flip := rfl
@[simp] theorem State.issueFirst_fullref (p : PortInput) : (s.issueFirst p).fullref = s.fullref := rfl
@[simp] theorem State.issueFirst_palchg (p : PortInput) : (s.issueFirst p).palchg = s.palchg := rfl
@[simp] theorem State.issueFirst_fb (p : PortInput) : (s.issueFirst p).fb = s.fb := rfl
@[simp] theorem State.issueFirst_pri (p : PortInput) : (s.issueFirst p).pri = s.pri := rfl
@[simp] theorem State.issueFirst_port (p : PortInput) : (s.issueFirst p).port = p :: s.port := rfl
@[simp] theorem State.issueFirst_rsp (p : PortInput) : (s.issueFirst p).rsp = s.rsp := rfl
@[simp] theorem State.issueFirst_powerUps (p : PortInput) : (s.issueFirst p).powerUps = s.powerUps := rfl

/-! ### `invalidate` (R161) -/

@[simp] theorem State.invalidate_cfg : s.invalidate.cfg = s.cfg := rfl
@[simp] theorem State.invalidate_built : s.invalidate.built = s.built := rfl
@[simp] theorem State.invalidate_spr : s.invalidate.spr = s.spr := rfl
@[simp] theorem State.invalidate_flip : s.invalidate.flip = s.flip := rfl
@[simp] theorem State.invalidate_fullref : s.invalidate.fullref = false := rfl
@[simp] theorem State.invalidate_palchg : s.invalidate.palchg = false := rfl
@[simp] theorem State.invalidate_fb : s.invalidate.fb = s.fb := rfl
@[simp] theorem State.invalidate_pri : s.invalidate.pri = s.pri := rfl
@[simp] theorem State.invalidate_port : s.invalidate.port = s.port := rfl
@[simp] theorem State.invalidate_rsp : s.invalidate.rsp = s.rsp := rfl
@[simp] theorem State.invalidate_powerUps : s.invalidate.powerUps = s.powerUps := rfl

/-! ### `redraw` (R162) -/

@[simp] theorem State.redraw_cfg : s.redraw.cfg = s.cfg := rfl
@[simp] theorem State.redraw_built : s.redraw.built = s.built := rfl
@[simp] theorem State.redraw_layers : s.redraw.layers = forLayers (redrawLayer s.flip) s.cfg.layers s.layers := rfl
@[simp] theorem State.redraw_spr : s.redraw.spr = s.spr := rfl
@[simp] theorem State.redraw_flip : s.redraw.flip = s.flip := rfl
@[simp] theorem State.redraw_fullref : s.redraw.fullref = s.fullref := rfl
@[simp] theorem State.redraw_palchg : s.redraw.palchg = s.palchg := rfl
@[simp] theorem State.redraw_fb : s.redraw.fb = s.fb := rfl
@[simp] theorem State.redraw_pri : s.redraw.pri = s.pri := rfl
@[simp] theorem State.redraw_port : s.redraw.port = s.port := rfl
@[simp] theorem State.redraw_rsp : s.redraw.rsp = s.rsp := rfl
@[simp] theorem State.redraw_powerUps : s.redraw.powerUps = s.powerUps := rfl

/-! ### `clearScreen` (R166) -/

@[simp] theorem State.clearScreen_cfg : s.clearScreen.cfg = s.cfg := rfl
@[simp] theorem State.clearScreen_built : s.clearScreen.built = s.built := rfl
@[simp] theorem State.clearScreen_layers : s.clearScreen.layers = s.layers := rfl
@[simp] theorem State.clearScreen_spr : s.clearScreen.spr = s.spr := rfl
@[simp] theorem State.clearScreen_flip : s.clearScreen.flip = s.flip := rfl
@[simp] theorem State.clearScreen_fullref : s.clearScreen.fullref = s.fullref := rfl
@[simp] theorem State.clearScreen_palchg : s.clearScreen.palchg = s.palchg := rfl
@[simp] theorem State.clearScreen_fb : s.clearScreen.fb = Memory.tabulate s.cfg.screenSize (fun _ => s.cfg.bgPen) := rfl
@[simp] theorem State.clearScreen_pri : s.clearScreen.pri = Memory.tabulate s.cfg.screenSize (fun _ => 0) := rfl
@[simp] theorem State.clearScreen_port : s.clearScreen.port = s.port := rfl
@[simp] theorem State.clearScreen_rsp : s.clearScreen.rsp = s.rsp := rfl
@[simp] theorem State.clearScreen_powerUps : s.clearScreen.powerUps = s.powerUps := rfl

/-! ### `copyTiles` (R167, R168) -/

@[simp] theorem State.copyTiles_cfg : s.copyTiles.cfg = s.cfg := rfl
@[simp] theorem State.copyTiles_built : s.copyTiles.built = s.built := rfl
@[simp] theorem State.copyTiles_layers : s.copyTiles.layers = s.layers := rfl
@[simp] theorem State.copyTiles_spr : s.copyTiles.spr = s.spr := rfl
@[simp] theorem State.copyTiles_flip : s.copyTiles.flip = s.flip := rfl
@[simp] theorem State.copyTiles_fullref : s.copyTiles.fullref = s.fullref := rfl
@[simp] theorem State.copyTiles_palchg : s.copyTiles.palchg = s.palchg := rfl
@[simp] theorem State.copyTiles_fb : s.copyTiles.fb = (copyLayers s.cfg s.flip s.cfg.layers s.layers ⟨s.fb, s.pri⟩).fb := rfl
@[simp] theorem State.copyTiles_pri : s.copyTiles.pri = (copyLayers s.cfg s.flip s.cfg.layers s.layers ⟨s.fb, s.pri⟩).pri := rfl
@[simp] theorem State.copyTiles_port : s.copyTiles.port = s.port := rfl
@[simp] theorem State.copyTiles_rsp : s.copyTiles.rsp = s.rsp := rfl
@[simp] theorem State.copyTiles_powerUps : s.copyTiles.powerUps = s.powerUps := rfl

/-! ### `spritePass` (R190, R200) -/

@[simp] theorem State.spritePass_cfg : s.spritePass.cfg = s.cfg := rfl
@[simp] theorem State.spritePass_built : s.spritePass.built = s.built := rfl
@[simp] theorem State.spritePass_layers : s.spritePass.layers = s.layers := rfl
@[simp] theorem State.spritePass_spr : s.spritePass.spr = s.spr := rfl
@[simp] theorem State.spritePass_flip : s.spritePass.flip = s.flip := rfl
@[simp] theorem State.spritePass_fullref : s.spritePass.fullref = s.fullref := rfl
@[simp] theorem State.spritePass_palchg : s.spritePass.palchg = s.palchg := rfl
@[simp] theorem State.spritePass_fb : s.spritePass.fb = drawSprites s.cfg s.flip s.spr s.pri s.cfg.nspr s.fb := rfl
@[simp] theorem State.spritePass_pri : s.spritePass.pri = s.pri := rfl
@[simp] theorem State.spritePass_port : s.spritePass.port = s.port := rfl
@[simp] theorem State.spritePass_rsp : s.spritePass.rsp = s.rsp := rfl
@[simp] theorem State.spritePass_powerUps : s.spritePass.powerUps = s.powerUps := rfl

/-! ### `composite` (R160) -/

@[simp] theorem State.composite_cfg : s.composite.cfg = s.cfg := rfl
@[simp] theorem State.composite_built : s.composite.built = s.built := rfl
@[simp] theorem State.composite_spr : s.composite.spr = s.spr := rfl
@[simp] theorem State.composite_flip : s.composite.flip = s.flip := rfl
@[simp] theorem State.composite_fullref : s.composite.fullref = false := rfl
@[simp] theorem State.composite_palchg : s.composite.palchg = false := rfl
@[simp] theorem State.composite_port : s.composite.port = s.port := rfl
@[simp] theorem State.composite_rsp : s.composite.rsp = s.rsp := rfl
@[simp] theorem State.composite_powerUps : s.composite.powerUps = s.powerUps := rfl

/-! ### `afterReset` (R38, R240) -/

section AfterReset

variable (b : BuiltCfg) (content : Config.Store → Nat → Byte) (port : List PortInput) (k : Nat)

@[simp] theorem State.afterReset_built : (State.afterReset b content port k).built = b := rfl
@[simp] theorem State.afterReset_cfg : (State.afterReset b content port k).cfg = b.cfg := rfl
@[simp] theorem State.afterReset_layers : (State.afterReset b content port k).layers = layersAfterReset content 0 b.cfg.layers := rfl
@[simp] theorem State.afterReset_spr : (State.afterReset b content port k).spr = Memory.tabulate b.cfg.sprBytes (content .spr) := rfl
@[simp] theorem State.afterReset_flip : (State.afterReset b content port k).flip = false := rfl
@[simp] theorem State.afterReset_fullref : (State.afterReset b content port k).fullref = false := rfl
@[simp] theorem State.afterReset_palchg : (State.afterReset b content port k).palchg = false := rfl
@[simp] theorem State.afterReset_fb : (State.afterReset b content port k).fb = Memory.tabulate b.cfg.screenSize (content .fb) := rfl
@[simp] theorem State.afterReset_pri : (State.afterReset b content port k).pri = Memory.tabulate b.cfg.screenSize (content .pri) := rfl
@[simp] theorem State.afterReset_port : (State.afterReset b content port k).port = port := rfl
@[simp] theorem State.afterReset_rsp : (State.afterReset b content port k).rsp = none := rfl
@[simp] theorem State.afterReset_powerUps : (State.afterReset b content port k).powerUps = k := rfl

end AfterReset

/-! ### `takeReset` (R240) -/

@[simp] theorem State.held_spr (i : Nat) : s.held .spr i = Memory.read s.spr i := rfl
@[simp] theorem State.held_fb (i : Nat) : s.held .fb i = Memory.read s.fb i := rfl
@[simp] theorem State.held_pri (i : Nat) : s.held .pri i = Memory.read s.pri i := rfl

/-- All that a reset event does: a launch state of the same configuration, its content free, the later inputs kept. -/
theorem State.takeReset_eq : s.takeReset = State.afterReset s.built s.powerUpContent s.port (s.powerUps + 1) := rfl

@[simp] theorem State.takeReset_cfg : s.takeReset.cfg = s.cfg := rfl
@[simp] theorem State.takeReset_built : s.takeReset.built = s.built := rfl
@[simp] theorem State.takeReset_layers : s.takeReset.layers = layersAfterReset s.powerUpContent 0 s.cfg.layers := rfl
@[simp] theorem State.takeReset_spr : s.takeReset.spr = Memory.tabulate s.cfg.sprBytes (s.powerUpContent .spr) := rfl
@[simp] theorem State.takeReset_flip : s.takeReset.flip = false := rfl
@[simp] theorem State.takeReset_fullref : s.takeReset.fullref = false := rfl
@[simp] theorem State.takeReset_palchg : s.takeReset.palchg = false := rfl
@[simp] theorem State.takeReset_fb : s.takeReset.fb = Memory.tabulate s.cfg.screenSize (s.powerUpContent .fb) := rfl
@[simp] theorem State.takeReset_pri : s.takeReset.pri = Memory.tabulate s.cfg.screenSize (s.powerUpContent .pri) := rfl
@[simp] theorem State.takeReset_port : s.takeReset.port = s.port := rfl
@[simp] theorem State.takeReset_rsp : s.takeReset.rsp = none := rfl
@[simp] theorem State.takeReset_powerUps : s.takeReset.powerUps = s.powerUps + 1 := rfl

end Sys2Proof.Machine
end

