-- ==== Sys2Proof/Laws/Ops.lean ====
section
/-!
SUPPORT. Laws/Ops.lean: what each shared operation can do, said once: layer resolution, the tracked writes, the register operations,
and that each of them keeps the shape `State.wf`.
-/

namespace Sys2Proof.Machine

variable {s : State} {c : LayerCfg} {y : Layer} {l : Nat}

/-! ### Layers -/

theorem State.layerAt_eq_some : s.layerAt l = some (c, y) ↔ s.cfg.layers[l]? = some c ∧ s.layers[l]? = some y := by
  unfold State.layerAt
  split <;> simp_all

theorem layersWf_iff {cs : List LayerCfg} {ys : List Layer} :
    layersWf cs ys = true ↔
      cs.length = ys.length ∧ ∀ (l : Nat) (c : LayerCfg) (y : Layer), cs[l]? = some c → ys[l]? = some y → Layer.wf c y = true := by
  induction cs generalizing ys with
  | nil => cases ys <;> simp [layersWf]
  | cons c cs ih =>
    cases ys with
    | nil => simp [layersWf]
    | cons y ys =>
      simp only [layersWf, Bool.and_eq_true, ih, List.length_cons, Nat.add_right_cancel_iff]
      constructor
      · rintro ⟨h0, h1, h2⟩
        refine ⟨h1, fun l c' y' hc hy => ?_⟩
        cases l with
        | zero => simp_all
        | succ l => exact h2 l c' y' (by simpa using hc) (by simpa using hy)
      · rintro ⟨h1, h2⟩
        exact ⟨h2 0 c y rfl rfl, h1, fun l c' y' hc hy => h2 (l + 1) c' y' (by simpa using hc) (by simpa using hy)⟩

theorem State.wf_iff : s.wf = true ↔
    s.cfg.wf = true ∧ layersWf s.cfg.layers s.layers = true ∧ Memory.wf s.cfg.sprBytes s.spr = true ∧
      Memory.wf s.cfg.screenSize s.fb = true ∧ Memory.wf s.cfg.screenSize s.pri = true := by
  simp [State.wf, and_assoc]

/-- In a well-shaped state a layer of the configuration has a state. -/
theorem State.layerAt_of_lt (h : s.wf = true) (hl : l < s.cfg.nLayers) : ∃ c y, s.layerAt l = some (c, y) := by
  have hlen := (layersWf_iff.1 (State.wf_iff.1 h).2.1).1
  have hl' : l < s.cfg.layers.length := hl
  exact ⟨s.cfg.layers[l], s.layers[l]'(hlen ▸ hl'), State.layerAt_eq_some.2 ⟨by simp, by simp⟩⟩

/-- Beyond `NLAYERS` the access is unmapped (R67). -/
theorem State.layerAt_of_ge (hl : s.cfg.nLayers ≤ l) : s.layerAt l = none := by
  have : s.cfg.layers[l]? = none := by simpa [Cfg.nLayers] using hl
  simp [State.layerAt, this]

theorem State.layer_wf (h : s.wf = true) (hy : s.layerAt l = some (c, y)) : Layer.wf c y = true := by
  obtain ⟨h1, h2⟩ := State.layerAt_eq_some.1 hy
  exact (layersWf_iff.1 (State.wf_iff.1 h).2.1).2 l c y h1 h2

theorem Layer.wf_iff : Layer.wf c y = true ↔
    Memory.wf c.nt y.tm = true ∧ Memory.wf c.nt y.am = true ∧ DirtySet.wf c.nt y.dirty = true ∧ Memory.wf c.bmpSize y.bmp = true := by
  simp [Layer.wf, and_assoc]

/-- A change of one layer that keeps its shape keeps the shape of all. -/
theorem layersWf_modify {cs : List LayerCfg} {ys : List Layer} {f : Layer → Layer} (h : layersWf cs ys = true)
    (hf : ∀ c y, cs[l]? = some c → Layer.wf c y = true → Layer.wf c (f y) = true) : layersWf cs (ys.modify l f) = true := by
  rw [layersWf_iff] at h ⊢
  refine ⟨by simpa using h.1, fun k c y hc hy => ?_⟩
  rw [List.getElem?_modify] at hy
  cases hk : ys[k]? with
  | none => simp [hk] at hy
  | some y0 =>
    rw [hk] at hy
    have hw := h.2 k c y0 hc hk
    by_cases hlk : l = k
    · subst hlk
      have : y = f y0 := by simpa using hy.symm
      rw [this]
      exact hf c y0 hc hw
    · have : y = y0 := by simpa [hlk] using hy.symm
      rwa [this]

theorem State.wf_updLayer {f : Layer → Layer} (h : s.wf = true)
    (hf : ∀ c y, s.cfg.layers[l]? = some c → Layer.wf c y = true → Layer.wf c (f y) = true) : (s.updLayer l f).wf = true := by
  rw [State.wf_iff] at h ⊢
  simpa using ⟨h.1, layersWf_modify h.2.1 hf, h.2.2⟩

/-- The layer an update names becomes the update of it. -/
theorem State.layerAt_updLayer_same {f : Layer → Layer} (h : s.layerAt l = some (c, y)) :
    (s.updLayer l f).layerAt l = some (c, f y) := by
  rw [State.layerAt_eq_some] at h ⊢
  exact ⟨h.1, by simp [h.2]⟩

/-- Another layer stays. -/
theorem State.layerAt_updLayer_other {f : Layer → Layer} {k : Nat} (h : k ≠ l) : (s.updLayer l f).layerAt k = s.layerAt k := by
  simp [State.layerAt, Ne.symm h]

/-- An update that changes nothing of the layer changes nothing. -/
theorem State.updLayer_eq_set {f : Layer → Layer} (h : s.layerAt l = some (c, y)) :
    s.updLayer l f = { s with layers := s.layers.set l (f y) } := by
  have hy := (State.layerAt_eq_some.1 h).2
  have : s.layers.modify l f = s.layers.set l (f y) := by
    apply List.ext_getElem?
    intro k
    rw [List.getElem?_modify, List.getElem?_set]
    by_cases hk : l = k
    · subst hk
      have hlt : l < s.layers.length := by
        by_contra hge
        rw [List.getElem?_eq_none (by omega)] at hy
        exact absurd hy (by simp)
      rw [List.getElem?_eq_getElem hlt] at hy
      simp [hlt, Option.some.inj hy]
    · simp [hk]
  simp only [State.updLayer, this]

/-! ### Sizes of a well-formed configuration -/

theorem Cfg.layer_ok {cfg : Cfg} (h : cfg.wf = true) (hc : cfg.layers[l]? = some c) : c.ok = true := by
  simp only [Cfg.wf, Bool.and_eq_true, List.all_eq_true] at h
  exact h.1.1.1.1.1.2 c (List.mem_of_getElem? hc)

theorem LayerCfg.sizes (h : c.ok = true) : 1 ≤ c.tileW ∧ 1 ≤ c.tileH ∧ 1 ≤ c.mapW ∧ 1 ≤ c.mapH := by
  simp only [LayerCfg.ok, LayerCfg.sizesOk, Bool.and_eq_true, decide_eq_true_eq] at h
  tauto

theorem LayerCfg.nt_pos (h : c.ok = true) : 0 < c.nt := by
  have := LayerCfg.sizes h
  exact Nat.mul_pos (by omega) (by omega)

theorem LayerCfg.bw_pos (h : c.ok = true) : 0 < c.bw := by
  have := LayerCfg.sizes h
  exact Nat.mul_pos (by omega) (by omega)

theorem LayerCfg.bh_pos (h : c.ok = true) : 0 < c.bh := by
  have := LayerCfg.sizes h
  exact Nat.mul_pos (by omega) (by omega)

theorem Cfg.screen_sizes {cfg : Cfg} (h : cfg.wf = true) :
    1 ≤ cfg.screenW ∧ cfg.screenW ≤ 256 ∧ 1 ≤ cfg.screenH ∧ cfg.screenH ≤ 256 := by
  simp only [Cfg.wf, Cfg.globalOk, Bool.and_eq_true, decide_eq_true_eq] at h
  tauto

theorem Cfg.sprite_sizes {cfg : Cfg} (h : cfg.wf = true) : 1 ≤ cfg.nspr ∧ 1 ≤ cfg.cellW ∧ 1 ≤ cfg.cellH := by
  simp only [Cfg.wf, Cfg.spritesOk, Bool.and_eq_true, decide_eq_true_eq] at h
  tauto

theorem Cfg.sprBytes_pos {cfg : Cfg} (h : cfg.wf = true) : 0 < cfg.sprBytes := by
  have := Cfg.sprite_sizes h
  refine Nat.mul_pos (by omega) ?_
  cases cfg.stride <;> decide

/-- Every pixel on the screen has its own key below the screen's size. -/
theorem pixelKey_lt {cfg : Cfg} {px py : Nat} (hx : px < cfg.screenW) (hy : py < cfg.screenH) :
    pixelKey cfg px py < cfg.screenSize := by
  unfold pixelKey Cfg.screenSize
  calc py * cfg.screenW + px < py * cfg.screenW + cfg.screenW := by omega
    _ = (py + 1) * cfg.screenW := by ring
    _ ≤ cfg.screenH * cfg.screenW := Nat.mul_le_mul_right _ hy

theorem pixelKey_mod {cfg : Cfg} {px : Nat} (hx : px < cfg.screenW) (py : Nat) : pixelKey cfg px py % cfg.screenW = px := by
  rw [pixelKey, Nat.mul_add_mod_of_lt hx]

theorem pixelKey_div {cfg : Cfg} {px : Nat} (hx : px < cfg.screenW) (py : Nat) : pixelKey cfg px py / cfg.screenW = py := by
  rw [pixelKey, Nat.add_comm, Nat.add_mul_div_right _ _ (by omega), Nat.div_eq_of_lt hx, Nat.zero_add]

theorem tileIndex_lt (h : c.ok = true) (off : BitVec 16) : tileIndex c off < c.nt :=
  Nat.mod_lt _ (LayerCfg.nt_pos h)

theorem spriteIndex_lt {cfg : Cfg} (h : cfg.wf = true) (off : BitVec 16) : spriteIndex cfg off < cfg.sprBytes :=
  Nat.mod_lt _ (Cfg.sprBytes_pos h)

/-! ### The tracked writes (R120, R121) -/

@[simp] theorem Layer.writeTm_am (y : Layer) (i : Nat) (v : Byte) : (y.writeTm i v).am = y.am := by
  unfold Layer.writeTm; split <;> rfl
@[simp] theorem Layer.writeTm_scx (y : Layer) (i : Nat) (v : Byte) : (y.writeTm i v).scx = y.scx := by
  unfold Layer.writeTm; split <;> rfl
@[simp] theorem Layer.writeTm_scy (y : Layer) (i : Nat) (v : Byte) : (y.writeTm i v).scy = y.scy := by
  unfold Layer.writeTm; split <;> rfl
@[simp] theorem Layer.writeTm_bmp (y : Layer) (i : Nat) (v : Byte) : (y.writeTm i v).bmp = y.bmp := by
  unfold Layer.writeTm; split <;> rfl
@[simp] theorem Layer.writeAm_tm (y : Layer) (i : Nat) (v : Byte) : (y.writeAm i v).tm = y.tm := by
  unfold Layer.writeAm; split <;> rfl
@[simp] theorem Layer.writeAm_scx (y : Layer) (i : Nat) (v : Byte) : (y.writeAm i v).scx = y.scx := by
  unfold Layer.writeAm; split <;> rfl
@[simp] theorem Layer.writeAm_scy (y : Layer) (i : Nat) (v : Byte) : (y.writeAm i v).scy = y.scy := by
  unfold Layer.writeAm; split <;> rfl
@[simp] theorem Layer.writeAm_bmp (y : Layer) (i : Nat) (v : Byte) : (y.writeAm i v).bmp = y.bmp := by
  unfold Layer.writeAm; split <;> rfl

/-- Writing the byte already there changes nothing at all (R65, R120). -/
theorem Layer.writeTm_same {i : Nat} {v : Byte} (h : Memory.read y.tm i = v) : y.writeTm i v = y := by
  simp [Layer.writeTm, h]

theorem Layer.writeAm_same {i : Nat} {v : Byte} (h : Memory.read y.am i = v) : y.writeAm i v = y := by
  simp [Layer.writeAm, h]

/-- The tile memory after `TWR`'s write. -/
theorem Layer.read_writeTm (h : Memory.wf c.nt y.tm = true) (i k : Nat) (v : Byte) :
    Memory.read (y.writeTm i v).tm k = if k = i then v else Memory.read y.tm k := by
  unfold Layer.writeTm
  split_ifs with h1 h2 h2
  · rw [h2, h1]
  · rfl
  · simp [Memory.read_write h, h2]
  · simp [Memory.read_write h, h2]

theorem Layer.read_writeAm (h : Memory.wf c.nt y.am = true) (i k : Nat) (v : Byte) :
    Memory.read (y.writeAm i v).am k = if k = i then v else Memory.read y.am k := by
  unfold Layer.writeAm
  split_ifs with h1 h2 h2
  · rw [h2, h1]
  · rfl
  · simp [Memory.read_write h, h2]
  · simp [Memory.read_write h, h2]

/-- The dirty set after `TWR`'s write: the tile's bit is set when the stored byte changes, and no bit is cleared. -/
theorem Layer.has_writeTm (y : Layer) (i k : Nat) (v : Byte) : DirtySet.has (y.writeTm i v).dirty k = true ↔
    DirtySet.has y.dirty k = true ∨ (k = i ∧ Memory.read y.tm i ≠ v) := by
  unfold Layer.writeTm
  split_ifs with h1
  · simp [h1]
  · simp [DirtySet.has_mark, h1, or_comm]

theorem Layer.has_writeAm (y : Layer) (i k : Nat) (v : Byte) : DirtySet.has (y.writeAm i v).dirty k = true ↔
    DirtySet.has y.dirty k = true ∨ (k = i ∧ Memory.read y.am i ≠ v) := by
  unfold Layer.writeAm
  split_ifs with h1
  · simp [h1]
  · simp [DirtySet.has_mark, h1, or_comm]

theorem Layer.wf_writeTm {i : Nat} (h : Layer.wf c y = true) (hi : i < c.nt) (v : Byte) : Layer.wf c (y.writeTm i v) = true := by
  rw [Layer.wf_iff] at h
  unfold Layer.writeTm
  split_ifs
  · exact Layer.wf_iff.2 h
  · exact Layer.wf_iff.2 ⟨Memory.wf_write h.1 hi v, h.2.1, DirtySet.wf_mark h.2.2.1 hi, h.2.2.2⟩

theorem Layer.wf_writeAm {i : Nat} (h : Layer.wf c y = true) (hi : i < c.nt) (v : Byte) : Layer.wf c (y.writeAm i v) = true := by
  rw [Layer.wf_iff] at h
  unfold Layer.writeAm
  split_ifs
  · exact Layer.wf_iff.2 h
  · exact Layer.wf_iff.2 ⟨h.1, Memory.wf_write h.2.1 hi v, DirtySet.wf_mark h.2.2.1 hi, h.2.2.2⟩

/-! ### Every shared operation keeps the shape -/

theorem State.wf_respond (h : s.wf = true) (r : Option Byte) : (s.respond r).wf = true := h

theorem State.wf_writeTile (h : s.wf = true) (sel : BitVec 4) (off : BitVec 16) (v : Byte) : (s.writeTile sel off v).wf = true := by
  unfold State.writeTile
  split
  · exact h
  · rename_i c y hy
    refine State.wf_updLayer h (fun c' y' hc hw => ?_)
    have : c' = c := by simpa [(State.layerAt_eq_some.1 hy).1] using hc.symm
    subst this
    exact Layer.wf_writeTm hw (tileIndex_lt (Cfg.layer_ok (State.wf_iff.1 h).1 hc) off) v

theorem State.wf_writeAttr (h : s.wf = true) (sel : BitVec 4) (off : BitVec 16) (v : Byte) : (s.writeAttr sel off v).wf = true := by
  unfold State.writeAttr
  split
  · exact h
  · rename_i c y hy
    refine State.wf_updLayer h (fun c' y' hc hw => ?_)
    have : c' = c := by simpa [(State.layerAt_eq_some.1 hy).1] using hc.symm
    subst this
    exact Layer.wf_writeAm hw (tileIndex_lt (Cfg.layer_ok (State.wf_iff.1 h).1 hc) off) v

theorem State.wf_writeSprite (h : s.wf = true) (off : BitVec 16) (v : Byte) : (s.writeSprite off v).wf = true := by
  have h' := State.wf_iff.1 h
  rw [State.wf_iff]
  exact ⟨h'.1, h'.2.1, Memory.wf_write h'.2.2.1 (spriteIndex_lt h'.1 off) v, h'.2.2.2⟩

theorem State.wf_writeReg (h : s.wf = true) (r : Reg) (v : Byte) : (s.writeReg r v).wf = true := by
  cases r with
  | ctrl => exact h
  | status => exact h
  | scxl l => exact State.wf_updLayer h (fun _ _ _ hw => hw)
  | scxh l => exact State.wf_updLayer h (fun _ _ _ hw => hw)
  | scyl l => exact State.wf_updLayer h (fun _ _ _ hw => hw)
  | scyh l => exact State.wf_updLayer h (fun _ _ _ hw => hw)

theorem State.wf_writeRegister (h : s.wf = true) (sel : BitVec 4) (off : BitVec 16) (v : Byte) :
    (s.writeRegister sel off v).wf = true := by
  unfold State.writeRegister
  split
  · exact State.wf_writeReg h _ v
  · exact h

theorem State.wf_requestRefresh (h : s.wf = true) : s.requestRefresh.wf = true := h

theorem State.wf_notePalette (h : s.wf = true) : s.notePalette.wf = true := h

/-! ### Layers right after reset -/

theorem layersAfterReset_getElem? (content : Config.Store → Nat → Byte) (k : Nat) (cs : List LayerCfg) (l : Nat) :
    (layersAfterReset content k cs)[l]? = cs[l]?.map (Layer.afterReset content (k + l)) := by
  induction cs generalizing k l with
  | nil => rfl
  | cons c cs ih =>
    cases l with
    | zero => rfl
    | succ l =>
      rw [layersAfterReset, List.getElem?_cons_succ, List.getElem?_cons_succ, ih, show k + 1 + l = k + (l + 1) by omega]

theorem Layer.wf_afterReset (content : Config.Store → Nat → Byte) (l : Nat) (c : LayerCfg) :
    Layer.wf c (Layer.afterReset content l c) = true := by
  simp [Layer.wf, Layer.afterReset]

theorem layersAfterReset_length (content : Config.Store → Nat → Byte) (k : Nat) (cs : List LayerCfg) :
    (layersAfterReset content k cs).length = cs.length := by
  induction cs generalizing k with
  | nil => rfl
  | cons c cs ih => simp [layersAfterReset, ih]

/-- Every state reset can leave has the shape. -/
theorem State.wf_afterReset (b : BuiltCfg) (content : Config.Store → Nat → Byte) (port : List PortInput) (k : Nat) :
    (State.afterReset b content port k).wf = true := by
  rw [State.wf_iff]
  refine ⟨b.ok, layersWf_iff.2 ⟨(layersAfterReset_length content 0 b.cfg.layers).symm, fun l c y hc hy => ?_⟩, Memory.wf_tabulate _ _,
    Memory.wf_tabulate _ _, Memory.wf_tabulate _ _⟩
  have hc' : b.cfg.layers[l]? = some c := hc
  have hy' : (layersAfterReset content 0 b.cfg.layers)[l]? = some y := hy
  rw [layersAfterReset_getElem?, hc'] at hy'
  have : Layer.afterReset content (0 + l) c = y := by simpa using hy'
  rw [← this]
  exact Layer.wf_afterReset content _ c

theorem State.wf_takeReset : s.takeReset.wf = true :=
  State.wf_afterReset s.built _ _ _

/-! ### Machine construction (R9, R222) -/

theorem reportUnless_eq_nil {ok : Bool} {e : ConfigError} : reportUnless ok e = [] ↔ ok = true := by
  cases ok <;> simp [reportUnless]

theorem layerErrors_eq_nil (l : Nat) (cs : List LayerCfg) : layerErrors l cs = [] ↔ cs.all LayerCfg.ok = true := by
  induction cs generalizing l with
  | nil => simp [layerErrors]
  | cons c cs ih => simp [layerErrors, reportUnless_eq_nil, ih, LayerCfg.ok, and_assoc]

/-- A configuration has no error exactly when it is well formed. -/
theorem Cfg.errors_eq_nil (cfg : Cfg) : cfg.errors = [] ↔ cfg.wf = true := by
  simp only [Cfg.errors, Cfg.wf, List.append_eq_nil_iff, reportUnless_eq_nil, layerErrors_eq_nil, Bool.and_eq_true]

/-- All that machine construction can answer. -/
theorem State.build_cases (cfg : Cfg) (content : Config.Store → Nat → Byte) :
    (∃ h : cfg.wf = true, State.build cfg content = .next (State.afterReset ⟨cfg, h⟩ content [] 0)) ∨
    (cfg.wf = false ∧ State.build cfg content = .refused (.illFormedConfig cfg.errors)) := by
  by_cases h : cfg.wf = true
  · exact .inl ⟨h, by simp [State.build, h]⟩
  · exact .inr ⟨by simpa using h, by simp [State.build, h]⟩

end Sys2Proof.Machine
end

