-- ==== Sys2Proof/Laws/Tiles.lean ====
section
/-!
SUPPORT. Laws/Tiles.lean: the geometry of the layer bitmap (`42_tile_compositor.md` R163, R165) and what phases 1 to 4 of `COMP` do to
a layer and to a pixel.
-/

namespace Sys2Proof.Machine

variable {c : LayerCfg} {y : Layer} {flip : Bool} {i j n k : Nat}

/-! ### Pixels of a rectangle -/

theorem mem_pixels {w h : Nat} {d : Nat × Nat} : d ∈ pixels w h ↔ d.1 < w ∧ d.2 < h := by
  obtain ⟨dx, dy⟩ := d
  simp only [pixels, List.mem_flatMap, List.mem_range, List.mem_map, Prod.mk.injEq]
  constructor
  · rintro ⟨b, hb, a, ha, rfl, rfl⟩
    exact ⟨ha, hb⟩
  · rintro ⟨ha, hb⟩
    exact ⟨dy, hb, dx, ha, rfl, rfl⟩

/-- Row and column are read back from a row-major key. -/
theorem rowMajor_inj {w a b a' b' : Nat} (ha : a < w) (ha' : a' < w) (h : b * w + a = b' * w + a') : a = a' ∧ b = b' := by
  have hw : 0 < w := by omega
  have h1 : (b * w + a) % w = (b' * w + a') % w := by rw [h]
  have h2 : (b * w + a) / w = (b' * w + a') / w := by rw [h]
  rw [Nat.mul_add_mod_of_lt ha, Nat.mul_add_mod_of_lt ha'] at h1
  rw [Nat.add_comm, Nat.add_mul_div_right _ _ hw, Nat.div_eq_of_lt ha, Nat.add_comm (b' * w), Nat.add_mul_div_right _ _ hw,
    Nat.div_eq_of_lt ha'] at h2
  omega

theorem rowMajor_lt {w h a b : Nat} (ha : a < w) (hb : b < h) : b * w + a < h * w :=
  calc b * w + a < b * w + w := by omega
    _ = (b + 1) * w := by ring
    _ ≤ h * w := Nat.mul_le_mul_right _ hb

/-! ### Placement (R165) -/

/-- A tile's place is on the map. -/
theorem tilePlace_lt (hi : i < c.nt) (a : Byte) : (tilePlace c flip i a).col < c.mapW ∧ (tilePlace c flip i a).row < c.mapH := by
  have hw : 0 < c.mapW := by
    rcases Nat.eq_zero_or_pos c.mapW with h | h
    · simp [LayerCfg.nt, h] at hi
    · exact h
  have hrow : i / c.mapW < c.mapH := Nat.div_lt_of_lt_mul hi
  have hcol : i % c.mapW < c.mapW := Nat.mod_lt _ hw
  cases flip <;> simp only [tilePlace, Bool.false_eq_true, if_false, if_true]
  · exact ⟨hcol, hrow⟩
  · generalize i / c.mapW = q at *
    omega

/-- Different tiles have different places, whatever their attribute bytes. -/
theorem tilePlace_inj (hi : i < c.nt) (hj : j < c.nt) {a b : Byte}
    (hc : (tilePlace c flip i a).col = (tilePlace c flip j b).col) (hr : (tilePlace c flip i a).row = (tilePlace c flip j b).row) :
    i = j := by
  have hw : 0 < c.mapW := by
    rcases Nat.eq_zero_or_pos c.mapW with h | h
    · simp [LayerCfg.nt, h] at hi
    · exact h
  have h1 : i / c.mapW < c.mapH := Nat.div_lt_of_lt_mul hi
  have h2 : j / c.mapW < c.mapH := Nat.div_lt_of_lt_mul hj
  have h3 : i % c.mapW < c.mapW := Nat.mod_lt _ hw
  have h4 : j % c.mapW < c.mapW := Nat.mod_lt _ hw
  have hm : i % c.mapW = j % c.mapW := by
    cases flip <;> simp only [tilePlace, Bool.false_eq_true, if_false, if_true] at hc <;> omega
  have hd : i / c.mapW = j / c.mapW := by
    cases flip <;> simp only [tilePlace, Bool.false_eq_true, if_false, if_true] at hr <;> omega
  rw [← Nat.div_add_mod i c.mapW, ← Nat.div_add_mod j c.mapW, hm, hd]

/-- Every place of the map is a tile's, whatever its attribute byte. -/
theorem exists_tile_at {col row : Nat} (hc : col < c.mapW) (hr : row < c.mapH) :
    ∃ i < c.nt, ∀ a, (tilePlace c flip i a).col = col ∧ (tilePlace c flip i a).row = row := by
  have hw : 0 < c.mapW := by omega
  cases flip with
  | false =>
    refine ⟨row * c.mapW + col, ?_, fun a => ?_⟩
    · rw [LayerCfg.nt, Nat.mul_comm c.mapW]
      exact rowMajor_lt hc hr
    · simp only [tilePlace, Bool.false_eq_true, if_false]
      exact ⟨Nat.mul_add_mod_of_lt hc, by rw [Nat.add_comm, Nat.add_mul_div_right _ _ hw, Nat.div_eq_of_lt hc, Nat.zero_add]⟩
  | true =>
    refine ⟨(c.mapH - 1 - row) * c.mapW + (c.mapW - 1 - col), ?_, fun a => ?_⟩
    · rw [LayerCfg.nt, Nat.mul_comm c.mapW]
      exact rowMajor_lt (by omega) (by omega)
    · simp only [tilePlace, if_true]
      rw [Nat.mul_add_mod_of_lt (show c.mapW - 1 - col < c.mapW by omega), Nat.add_comm, Nat.add_mul_div_right _ _ hw,
        Nat.div_eq_of_lt (show c.mapW - 1 - col < c.mapW by omega)]
      omega

/-! ### Bitmap keys (R163) -/

theorem tileKey_lt {col row dx dy : Nat} (hc : col < c.mapW) (hr : row < c.mapH) (hx : dx < c.tileW) (hy : dy < c.tileH) :
    tileKey c col row dx dy < c.bmpSize :=
  rowMajor_lt (rowMajor_lt hx hc) (rowMajor_lt hy hr)

theorem tileKey_inj {col row dx dy col' row' dx' dy' : Nat} (hc : col < c.mapW) (hx : dx < c.tileW) (hy : dy < c.tileH)
    (hc' : col' < c.mapW) (hx' : dx' < c.tileW) (hy' : dy' < c.tileH)
    (h : tileKey c col row dx dy = tileKey c col' row' dx' dy') : col = col' ∧ row = row' ∧ dx = dx' ∧ dy = dy' := by
  obtain ⟨h1, h2⟩ := rowMajor_inj (rowMajor_lt hx hc) (rowMajor_lt hx' hc') h
  obtain ⟨h3, h4⟩ := rowMajor_inj hx hx' h1
  obtain ⟨h5, h6⟩ := rowMajor_inj hy hy' h2
  exact ⟨h4, h6, h3, h5⟩

theorem rectKey_lt (hi : i < c.nt) {dx dy : Nat} (hx : dx < c.tileW) (hy : dy < c.tileH) : rectKey c flip y i dx dy < c.bmpSize := by
  have := tilePlace_lt (flip := flip) hi (Memory.read y.am i)
  exact tileKey_lt this.1 this.2 hx hy

/-- "rectangles of different tiles are disjoint" (R165). -/
theorem rectKey_inj (hi : i < c.nt) (hj : j < c.nt) {dx dy dx' dy' : Nat} (hx : dx < c.tileW) (hy : dy < c.tileH)
    (hx' : dx' < c.tileW) (hy' : dy' < c.tileH) (h : rectKey c flip y i dx dy = rectKey c flip y j dx' dy') :
    i = j ∧ dx = dx' ∧ dy = dy' := by
  have h1 := tilePlace_lt (flip := flip) hi (Memory.read y.am i)
  have h2 := tilePlace_lt (flip := flip) hj (Memory.read y.am j)
  obtain ⟨hc, hr, hxx, hyy⟩ := tileKey_inj h1.1 hx hy h2.1 hx' hy' h
  exact ⟨tilePlace_inj hi hj hc hr, hxx, hyy⟩

/-- "and together cover `BMP[l]`" (R165). -/
theorem exists_rectKey (y : Layer) {u v : Nat} (hu : u < c.bw) (hv : v < c.bh) :
    ∃ i < c.nt, ∃ dx < c.tileW, ∃ dy < c.tileH, rectKey c flip y i dx dy = v * c.bw + u := by
  have hw : 0 < c.tileW := by
    rcases Nat.eq_zero_or_pos c.tileW with h | h
    · simp [LayerCfg.bw, h] at hu
    · exact h
  have hh : 0 < c.tileH := by
    rcases Nat.eq_zero_or_pos c.tileH with h | h
    · simp [LayerCfg.bh, h] at hv
    · exact h
  have hcol : u / c.tileW < c.mapW := Nat.div_lt_of_lt_mul (by rwa [Nat.mul_comm])
  have hrow : v / c.tileH < c.mapH := Nat.div_lt_of_lt_mul (by rwa [Nat.mul_comm])
  obtain ⟨i, hi, hp⟩ := exists_tile_at (flip := flip) hcol hrow
  refine ⟨i, hi, u % c.tileW, Nat.mod_lt _ hw, v % c.tileH, Nat.mod_lt _ hh, ?_⟩
  simp only [rectKey, tileKey, (hp (Memory.read y.am i)).1, (hp (Memory.read y.am i)).2]
  rw [Nat.mul_comm (v / c.tileH), Nat.div_add_mod, Nat.mul_comm (u / c.tileW), Nat.div_add_mod]

/-- The flipped rectangle of a tile is the point mirror of the unflipped one (R165, R173). -/
theorem rectKey_flip (hi : i < c.nt) {dx dy : Nat} (hx : dx < c.tileW) (hy : dy < c.tileH) :
    ∃ u < c.bw, ∃ v < c.bh, rectKey c false y i dx dy = v * c.bw + u ∧
      rectKey c true y i (c.tileW - 1 - dx) (c.tileH - 1 - dy) = (c.bh - 1 - v) * c.bw + (c.bw - 1 - u) := by
  have hp := tilePlace_lt (flip := false) hi (Memory.read y.am i)
  simp only [tilePlace, Bool.false_eq_true, if_false] at hp
  have hu := rowMajor_lt hx hp.1
  have hv := rowMajor_lt hy hp.2
  refine ⟨_, hu, _, hv, rfl, ?_⟩
  have ax : ∀ {m t q d : Nat}, q < m → d < t → (m - 1 - q) * t + (t - 1 - d) = m * t - 1 - (q * t + d) := by
    intro m t q d hq hd
    have h1 := rowMajor_lt hd hq
    have h2 : (m - 1 - q) * t + q * t + t = m * t := by
      rw [← Nat.add_mul, show m - 1 - q + q = m - 1 by omega, ← Nat.succ_mul, show (m - 1).succ = m by omega]
    omega
  simp only [rectKey, tilePlace, tileKey, if_true]
  rw [ax hp.1 hx, ax hp.2 hy]
  rfl

/-- The flipped picture of a tile is the point mirror of the unflipped one (R163, R165, R173). -/
theorem renderPen_flip {dx dy : Nat} (hx : dx < c.tileW) (hy : dy < c.tileH) :
    renderPen c true y i (c.tileW - 1 - dx) (c.tileH - 1 - dy) = renderPen c false y i dx dy := by
  have h1 : c.tileW - 1 - (c.tileW - 1 - dx) = dx := by omega
  have h2 : c.tileH - 1 - (c.tileH - 1 - dy) = dy := by omega
  simp only [renderPen, tilePlace, tilePen, if_true, Bool.false_eq_true, if_false, h1, h2]
  cases attrFlipX (Memory.read y.am i) <;> cases attrFlipY (Memory.read y.am i) <;> rfl

/-! ### `RedrawTile` and phase 2 (R162, R163) -/

theorem mem_tileCells {e : Host.Cell} : e ∈ tileCells c flip y i ↔
    ∃ dx < c.tileW, ∃ dy < c.tileH, e = (rectKey c flip y i dx dy, renderPen c flip y i dx dy) := by
  simp only [tileCells, List.mem_map, mem_pixels, Prod.exists]
  constructor
  · rintro ⟨dx, dy, ⟨hx, hy⟩, rfl⟩
    exact ⟨dx, hx, dy, hy, rfl⟩
  · rintro ⟨dx, hx, dy, hy, rfl⟩
    exact ⟨dx, dy, ⟨hx, hy⟩, rfl⟩

theorem tileCells_lt (hi : i < c.nt) : ∀ e ∈ tileCells c flip y i, e.1 < c.bmpSize := by
  intro e he
  obtain ⟨dx, hx, dy, hy, rfl⟩ := mem_tileCells.1 he
  exact rectKey_lt hi hx hy

@[simp] theorem redrawTile_tm : (redrawTile c flip y i).tm = y.tm := rfl
@[simp] theorem redrawTile_am : (redrawTile c flip y i).am = y.am := rfl
@[simp] theorem redrawTile_scx : (redrawTile c flip y i).scx = y.scx := rfl
@[simp] theorem redrawTile_scy : (redrawTile c flip y i).scy = y.scy := rfl
@[simp] theorem redrawTile_dirty : (redrawTile c flip y i).dirty = DirtySet.clear y.dirty i := rfl

/-- On the tile's rectangle a redraw shows the tile (R163). -/
theorem redrawTile_read_rect (h : Memory.wf c.bmpSize y.bmp = true) (hi : i < c.nt) {dx dy : Nat} (hx : dx < c.tileW)
    (hy : dy < c.tileH) : Memory.read (redrawTile c flip y i).bmp (rectKey c flip y i dx dy) = renderPen c flip y i dx dy := by
  refine Memory.read_writeMany_same h (tileCells_lt hi) (fun e he hk => ?_) ⟨_, mem_tileCells.2 ⟨dx, hx, dy, hy, rfl⟩, rfl⟩
  obtain ⟨dx', hx', dy', hy', rfl⟩ := mem_tileCells.1 he
  obtain ⟨-, rfl, rfl⟩ := rectKey_inj hi hi hx' hy' hx hy hk
  rfl

/-- Outside the tile's rectangle a redraw changes nothing (R162). -/
theorem redrawTile_read_other (h : Memory.wf c.bmpSize y.bmp = true) (hi : i < c.nt) (hk : ¬ inRect c flip y i k) :
    Memory.read (redrawTile c flip y i).bmp k = Memory.read y.bmp k := by
  refine Memory.read_writeMany_other h (tileCells_lt hi) (fun e he hek => hk ?_)
  obtain ⟨dx, hx, dy, hy, rfl⟩ := mem_tileCells.1 he
  exact ⟨dx, hx, dy, hy, hek.symm⟩

theorem Layer.wf_redrawTile (h : Layer.wf c y = true) (hi : i < c.nt) : Layer.wf c (redrawTile c flip y i) = true := by
  rw [Layer.wf_iff] at h ⊢
  exact ⟨h.1, h.2.1, DirtySet.wf_clear h.2.2.1 i, Memory.wf_writeMany h.2.2.2 (tileCells_lt hi)⟩

/-- Phase 2 of one layer up to tile `n`. -/
def redrawUpTo (flip : Bool) (c : LayerCfg) (y : Layer) (n : Nat) : Layer :=
  (List.range n).foldl (fun y i => if DirtySet.has y.dirty i then redrawTile c flip y i else y) y

theorem redrawUpTo_zero : redrawUpTo flip c y 0 = y := rfl

theorem redrawUpTo_succ : redrawUpTo flip c y (n + 1) =
    if DirtySet.has (redrawUpTo flip c y n).dirty n then redrawTile c flip (redrawUpTo flip c y n) n else redrawUpTo flip c y n := by
  rw [redrawUpTo, List.range_succ, List.foldl_append]
  rfl

theorem redrawLayer_eq : redrawLayer flip c y = redrawUpTo flip c y c.nt := rfl

/-- What phase 2 leaves of a layer after its first `n` tiles. -/
structure RedrawnUpTo (flip : Bool) (c : LayerCfg) (y z : Layer) (n : Nat) : Prop where
  tm : z.tm = y.tm
  am : z.am = y.am
  scx : z.scx = y.scx
  scy : z.scy = y.scy
  wf : Layer.wf c z = true
  dirty : ∀ i, DirtySet.has z.dirty i = true ↔ DirtySet.has y.dirty i = true ∧ n ≤ i
  drawn : ∀ i < n, DirtySet.has y.dirty i = true → ∀ dx < c.tileW, ∀ dy < c.tileH,
    Memory.read z.bmp (rectKey c flip y i dx dy) = renderPen c flip y i dx dy
  kept : ∀ k, (∀ i < n, DirtySet.has y.dirty i = true → ¬ inRect c flip y i k) → Memory.read z.bmp k = Memory.read y.bmp k

/-- A rectangle and its picture depend on tile and attribute memory alone. -/
theorem rectKey_congr {z : Layer} (ha : z.am = y.am) (dx dy : Nat) : rectKey c flip z i dx dy = rectKey c flip y i dx dy := by
  simp [rectKey, ha]

theorem renderPen_congr {z : Layer} (ht : z.tm = y.tm) (ha : z.am = y.am) (dx dy : Nat) :
    renderPen c flip z i dx dy = renderPen c flip y i dx dy := by
  simp [renderPen, ht, ha]

theorem inRect_congr {z : Layer} (ha : z.am = y.am) : inRect c flip z i k ↔ inRect c flip y i k := by
  simp [inRect, rectKey_congr ha]

theorem redrawUpTo_spec (h : Layer.wf c y = true) (hn : n ≤ c.nt) : RedrawnUpTo flip c y (redrawUpTo flip c y n) n := by
  induction n with
  | zero =>
    exact ⟨rfl, rfl, rfl, rfl, h, fun i => by simp [redrawUpTo_zero], fun i hi => by omega, fun k _ => rfl⟩
  | succ n ih =>
    obtain ⟨htm, ham, hscx, hscy, hwf, hdirty, hdrawn, hkept⟩ := ih (by omega)
    have hi : n < c.nt := by omega
    have hbmp := (Layer.wf_iff.1 hwf).2.2.2
    rw [redrawUpTo_succ]
    split_ifs with hd
    · refine ⟨htm, ham, hscx, hscy, Layer.wf_redrawTile hwf hi, fun i => ?_, fun i hin hdi dx hx dy hy => ?_, fun k hk => ?_⟩
      · rw [redrawTile_dirty, DirtySet.has_clear, hdirty]
        constructor
        · rintro ⟨h1, h2, h3⟩
          exact ⟨h2, by omega⟩
        · rintro ⟨h1, h2⟩
          exact ⟨by omega, h1, by omega⟩
      · by_cases hin' : i = n
        · subst hin'
          have := redrawTile_read_rect (flip := flip) hbmp hi hx hy
          rwa [rectKey_congr ham, renderPen_congr htm ham] at this
        · rw [redrawTile_read_other hbmp hi]
          · exact hdrawn i (by omega) hdi dx hx dy hy
          · rw [inRect_congr ham]
            rintro ⟨dx', hx', dy', hy', hkey⟩
            exact hin' (rectKey_inj (by omega) hi hx hy hx' hy' hkey).1
      · rw [redrawTile_read_other hbmp hi]
        · exact hkept k (fun i hin hdi => hk i (by omega) hdi)
        · rw [inRect_congr ham]
          exact hk n (by omega) ((hdirty n).1 hd).1
    · have hn0 : DirtySet.has y.dirty n ≠ true := fun hc => hd ((hdirty n).2 ⟨hc, le_refl n⟩)
      refine ⟨htm, ham, hscx, hscy, hwf, fun i => ?_, fun i hin hdi => ?_, fun k hk => ?_⟩
      · rw [hdirty]
        constructor
        · rintro ⟨h1, h2⟩
          refine ⟨h1, ?_⟩
          rcases Nat.lt_or_ge n i with h3 | h3
          · omega
          · have : i = n := by omega
            exact absurd (this ▸ h1) hn0
        · rintro ⟨h1, h2⟩
          exact ⟨h1, by omega⟩
      · have : i ≠ n := fun hc => hn0 (hc ▸ hdi)
        exact hdrawn i (by omega) hdi
      · exact hkept k (fun i hin hdi => hk i (by omega) hdi)

/-- Everything phase 2 does to a layer. -/
theorem redrawLayer_spec (h : Layer.wf c y = true) : RedrawnUpTo flip c y (redrawLayer flip c y) c.nt :=
  redrawUpTo_spec h (le_refl _)

/-- After phase 2 no tile of the layer is dirty. -/
theorem redrawLayer_dirty (h : Layer.wf c y = true) : (redrawLayer flip c y).dirty = [] := by
  refine DirtySet.eq_nil_of_forall (fun i hi => ?_)
  have h1 := ((redrawLayer_spec (flip := flip) h).dirty i).1 hi
  have h2 := (DirtySet.lt_of_has (Layer.wf_iff.1 h).2.2.1 h1.1).2
  omega

/-! ### All layers -/

theorem forLayers_length (f : LayerCfg → Layer → Layer) (cs : List LayerCfg) (ys : List Layer) :
    (forLayers f cs ys).length = ys.length := by
  induction cs generalizing ys with
  | nil => rfl
  | cons c cs ih => cases ys <;> simp [forLayers, ih]

/-- A layer of the configuration gets the operation. -/
theorem forLayers_getElem? (f : LayerCfg → Layer → Layer) {cs : List LayerCfg} {ys : List Layer} {l : Nat} (hc : cs[l]? = some c)
    (hy : ys[l]? = some y) : (forLayers f cs ys)[l]? = some (f c y) := by
  induction cs generalizing ys l with
  | nil => simp at hc
  | cons c' cs ih =>
    cases ys with
    | nil => simp at hy
    | cons y' ys =>
      cases l with
      | zero =>
        simp only [List.getElem?_cons_zero, Option.some.injEq] at hc hy
        simp [forLayers, hc, hy]
      | succ l =>
        simp only [List.getElem?_cons_succ] at hc hy
        simpa [forLayers] using ih hc hy

theorem layersWf_forLayers {f : LayerCfg → Layer → Layer} {cs : List LayerCfg} {ys : List Layer} (h : layersWf cs ys = true)
    (hf : ∀ (l : Nat) c y, cs[l]? = some c → Layer.wf c y = true → Layer.wf c (f c y) = true) :
    layersWf cs (forLayers f cs ys) = true := by
  rw [layersWf_iff] at h ⊢
  refine ⟨by rw [forLayers_length]; exact h.1, fun l c z hc hz => ?_⟩
  have hl : l < ys.length := by
    rw [← forLayers_length f cs ys]
    by_contra hge
    rw [List.getElem?_eq_none (by omega)] at hz
    exact absurd hz (by simp)
  have hy : ys[l]? = some ys[l] := List.getElem?_eq_getElem hl
  rw [forLayers_getElem? f hc hy] at hz
  rw [← Option.some.inj hz]
  exact hf l c _ hc (h.2 l c _ hc hy)

/-! ### Phase 4 on one pixel (R167, R170, R171) -/

/-- The framebuffer pixel a stack of layers leaves over `pen`, back to front. -/
def stackPen (cfg : Cfg) (flip : Bool) (px py : Nat) : List LayerCfg → List Layer → Byte → Byte
  | c :: cs, y :: ys, pen =>
    stackPen cfg flip px py cs ys
      (if opaquePen c.transp (layerPen cfg flip c y px py) then layerPen cfg flip c y px py else pen)
  | _, _, pen => pen

/-- The priority byte a stack of layers leaves over `pri`. -/
def stackPri (cfg : Cfg) (flip : Bool) (px py : Nat) : List LayerCfg → List Layer → Byte → Byte
  | c :: cs, y :: ys, pri =>
    stackPri cfg flip px py cs ys (if opaquePen c.transp (layerPen cfg flip c y px py) then pri ||| c.lpri else pri)
  | _, _, pri => pri

theorem copyLayers_fb {cfg : Cfg} {px py : Nat} (hx : px < cfg.screenW) (hy : py < cfg.screenH) (cs : List LayerCfg)
    (ys : List Layer) (m : Screen) : Memory.read (copyLayers cfg flip cs ys m).fb (pixelKey cfg px py) =
      stackPen cfg flip px py cs ys (Memory.read m.fb (pixelKey cfg px py)) := by
  induction cs generalizing ys m with
  | nil => rfl
  | cons c cs ih =>
    cases ys with
    | nil => rfl
    | cons y ys =>
      rw [copyLayers, ih, stackPen]
      congr 1
      simp only [copyLayer]
      rw [Memory.read_tabulate _ (pixelKey_lt hx hy), pixelKey_mod hx, pixelKey_div hx]

theorem copyLayers_pri {cfg : Cfg} {px py : Nat} (hx : px < cfg.screenW) (hy : py < cfg.screenH) (cs : List LayerCfg)
    (ys : List Layer) (m : Screen) : Memory.read (copyLayers cfg flip cs ys m).pri (pixelKey cfg px py) =
      stackPri cfg flip px py cs ys (Memory.read m.pri (pixelKey cfg px py)) := by
  induction cs generalizing ys m with
  | nil => rfl
  | cons c cs ih =>
    cases ys with
    | nil => rfl
    | cons y ys =>
      rw [copyLayers, ih, stackPri]
      congr 1
      simp only [copyLayer]
      rw [Memory.read_tabulate _ (pixelKey_lt hx hy), pixelKey_mod hx, pixelKey_div hx]

theorem copyLayers_wf {cfg : Cfg} (cs : List LayerCfg) (ys : List Layer) {m : Screen}
    (h : Memory.wf cfg.screenSize m.fb = true ∧ Memory.wf cfg.screenSize m.pri = true) :
    Memory.wf cfg.screenSize (copyLayers cfg flip cs ys m).fb = true ∧
      Memory.wf cfg.screenSize (copyLayers cfg flip cs ys m).pri = true := by
  induction cs generalizing ys m with
  | nil => exact h
  | cons c cs ih =>
    cases ys with
    | nil => exact h
    | cons y ys => exact ih ys ⟨Memory.wf_tabulate _ _, Memory.wf_tabulate _ _⟩

end Sys2Proof.Machine
end

