-- ==== Sys2Proof/Laws/Composite.lean ====
section
/-!
SUPPORT. Laws/Composite.lean: what the phases of `COMP` do to the machine (`42_tile_compositor.md` R160 to R171,
`43_sprite_compositor.md` R190 to R201): the layers, the shape, and the sprite writes staying on the screen.
-/

namespace Sys2Proof.Machine

variable {s : State} {c : LayerCfg} {y : Layer} {l : Nat}

/-! ### Layers through phases 1 and 2 -/

/-- A layer after phase 1 (R161). -/
def State.invalidated (s : State) (c : LayerCfg) (y : Layer) : Layer :=
  if s.fullref || s.palchg then { y with dirty := DirtySet.full c.nt } else y

@[simp] theorem State.invalidated_tm : (s.invalidated c y).tm = y.tm := by unfold State.invalidated; split <;> rfl
@[simp] theorem State.invalidated_am : (s.invalidated c y).am = y.am := by unfold State.invalidated; split <;> rfl
@[simp] theorem State.invalidated_scx : (s.invalidated c y).scx = y.scx := by unfold State.invalidated; split <;> rfl
@[simp] theorem State.invalidated_scy : (s.invalidated c y).scy = y.scy := by unfold State.invalidated; split <;> rfl
@[simp] theorem State.invalidated_bmp : (s.invalidated c y).bmp = y.bmp := by unfold State.invalidated; split <;> rfl

/-- Phase 1 marks every tile of the layer when a request is pending, and no tile otherwise. -/
theorem State.has_invalidated {i : Nat} (hi : i < c.nt) :
    DirtySet.has (s.invalidated c y).dirty i = true ↔ s.toRedraw y i := by
  unfold State.invalidated State.toRedraw
  cases s.fullref <;> cases s.palchg <;> simp [DirtySet.has_full, hi]

theorem Layer.wf_invalidated (h : Layer.wf c y = true) : Layer.wf c (s.invalidated c y) = true := by
  rw [Layer.wf_iff] at h ⊢
  unfold State.invalidated
  split
  · exact ⟨h.1, h.2.1, DirtySet.wf_full _, h.2.2.2⟩
  · exact h

theorem State.layerAt_invalidate (h : s.layerAt l = some (c, y)) : s.invalidate.layerAt l = some (c, s.invalidated c y) := by
  rw [State.layerAt_eq_some] at h ⊢
  refine ⟨h.1, ?_⟩
  unfold State.invalidate State.invalidated
  by_cases hr : (s.fullref || s.palchg) = true
  · simp only [hr, if_true]
    exact forLayers_getElem? (fun c y => { y with dirty := DirtySet.full c.nt }) h.1 h.2
  · simp only [hr]
    exact h.2

theorem State.layerAt_redraw (h : s.layerAt l = some (c, y)) : s.redraw.layerAt l = some (c, redrawLayer s.flip c y) := by
  rw [State.layerAt_eq_some] at h ⊢
  exact ⟨h.1, forLayers_getElem? (redrawLayer s.flip) h.1 h.2⟩

/-- A layer after a whole `COMP`. -/
theorem State.layerAt_composite (h : s.layerAt l = some (c, y)) :
    s.composite.layerAt l = some (c, redrawLayer s.flip c (s.invalidated c y)) :=
  State.layerAt_redraw (s := s.invalidate) (State.layerAt_invalidate h)

/-- `COMP` leaves the layers as its tile half does. -/
theorem State.composite_layers_eq : s.composite.layers = s.compositeTiles.layers := rfl

/-- `COMP` leaves as many layer records as there were. -/
theorem State.composite_layers_length : s.composite.layers.length = s.layers.length := by
  show (forLayers _ s.cfg.layers s.invalidate.layers).length = _
  rw [forLayers_length]
  unfold State.invalidate
  by_cases hr : (s.fullref || s.palchg) = true
  · simp [hr, forLayers_length]
  · simp [hr]

/-- Everything `COMP` does to a layer (R161, R162, R163). -/
theorem State.composite_layer (hs : s.wf = true) (h : s.layerAt l = some (c, y)) :
    ∃ z, s.composite.layerAt l = some (c, z) ∧ z.dirty = [] ∧ RedrawnUpTo s.flip c (s.invalidated c y) z c.nt := by
  have hw := Layer.wf_invalidated (s := s) (State.layer_wf hs h)
  exact ⟨_, State.layerAt_composite h, redrawLayer_dirty hw, redrawLayer_spec hw⟩

/-! ### The sprite pass writes pixels of the screen only (R197) -/

theorem spriteCell_lt {cfg : Cfg} {pri : Memory} {p : SpritePlace} {g : SpriteImage} {d : Nat × Nat} {e : Host.Cell}
    (h : spriteCell cfg pri p g d = some e) : e.1 < cfg.screenSize := by
  simp only [spriteCell] at h
  split at h
  · rename_i hb
    split at h
    · rw [← Option.some.inj h]
      exact pixelKey_lt (by omega) (by omega)
    · exact absurd h (by simp)
  · exact absurd h (by simp)

theorem drawSpriteAt_wf {cfg : Cfg} {pri fb : Memory} {p : SpritePlace} {g : SpriteImage}
    (h : Memory.wf cfg.screenSize fb = true) : Memory.wf cfg.screenSize (drawSpriteAt cfg pri p g fb) = true := by
  refine Memory.wf_writeMany h (fun e he => ?_)
  obtain ⟨d, -, hd⟩ := List.mem_filterMap.1 he
  exact spriteCell_lt hd

theorem drawSpriteRecord_wf {cfg : Cfg} {flip : Bool} {spr pri fb : Memory} {n : Nat}
    (h : Memory.wf cfg.screenSize fb = true) : Memory.wf cfg.screenSize (drawSpriteRecord cfg flip spr pri n fb) = true := by
  simp only [drawSpriteRecord]
  split_ifs
  · exact drawSpriteAt_wf (drawSpriteAt_wf h)
  · exact drawSpriteAt_wf h
  · exact h

theorem drawSprites_wf {cfg : Cfg} {flip : Bool} {spr pri : Memory} (n : Nat) {fb : Memory}
    (h : Memory.wf cfg.screenSize fb = true) : Memory.wf cfg.screenSize (drawSprites cfg flip spr pri n fb) = true := by
  induction n generalizing fb with
  | zero => exact h
  | succ n ih => exact ih (drawSpriteRecord_wf h)

/-! ### The shape through a whole frame -/

theorem State.wf_invalidate (h : s.wf = true) : s.invalidate.wf = true := by
  rw [State.wf_iff] at h ⊢
  refine ⟨h.1, ?_, h.2.2⟩
  unfold State.invalidate
  by_cases hr : (s.fullref || s.palchg) = true
  · simp only [hr, if_true]
    refine layersWf_forLayers h.2.1 (fun l c y _ hw => ?_)
    rw [Layer.wf_iff] at hw ⊢
    exact ⟨hw.1, hw.2.1, DirtySet.wf_full _, hw.2.2.2⟩
  · simp only [hr]
    exact h.2.1

theorem State.wf_redraw (h : s.wf = true) : s.redraw.wf = true := by
  rw [State.wf_iff] at h ⊢
  exact ⟨h.1, layersWf_forLayers h.2.1 (fun l c y _ hw => (redrawLayer_spec hw).wf), h.2.2⟩

theorem State.wf_clearScreen (h : s.wf = true) : s.clearScreen.wf = true := by
  rw [State.wf_iff] at h ⊢
  exact ⟨h.1, h.2.1, h.2.2.1, Memory.wf_tabulate _ _, Memory.wf_tabulate _ _⟩

theorem State.wf_copyTiles (h : s.wf = true) : s.copyTiles.wf = true := by
  rw [State.wf_iff] at h ⊢
  have := copyLayers_wf (flip := s.flip) (cfg := s.cfg) s.cfg.layers s.layers (m := ⟨s.fb, s.pri⟩) ⟨h.2.2.2.1, h.2.2.2.2⟩
  exact ⟨h.1, h.2.1, h.2.2.1, this.1, this.2⟩

theorem State.wf_spritePass (h : s.wf = true) : s.spritePass.wf = true := by
  rw [State.wf_iff] at h ⊢
  exact ⟨h.1, h.2.1, h.2.2.1, drawSprites_wf _ h.2.2.2.1, h.2.2.2.2⟩

theorem State.wf_compositeTiles (h : s.wf = true) : s.compositeTiles.wf = true :=
  State.wf_copyTiles (State.wf_clearScreen (State.wf_redraw (State.wf_invalidate h)))

theorem State.wf_composite (h : s.wf = true) : s.composite.wf = true :=
  State.wf_spritePass (State.wf_compositeTiles h)

/-! ### The framebuffer before the sprite pass (R166, R167, R168) -/

/-- The tile picture at a screen pixel: the stack of layers over the background pen. -/
theorem State.compositeTiles_fb {px py : Nat} (hx : px < s.cfg.screenW) (hy : py < s.cfg.screenH) :
    Memory.read s.compositeTiles.fb (pixelKey s.cfg px py) =
      stackPen s.cfg s.flip px py s.cfg.layers s.composite.layers s.cfg.bgPen := by
  have := copyLayers_fb (flip := s.flip) (cfg := s.cfg) hx hy s.cfg.layers s.composite.layers
    ⟨Memory.tabulate s.cfg.screenSize (fun _ => s.cfg.bgPen), Memory.tabulate s.cfg.screenSize (fun _ => 0)⟩
  rw [Memory.read_tabulate _ (pixelKey_lt hx hy)] at this
  exact this

theorem State.compositeTiles_pri {px py : Nat} (hx : px < s.cfg.screenW) (hy : py < s.cfg.screenH) :
    Memory.read s.compositeTiles.pri (pixelKey s.cfg px py) =
      stackPri s.cfg s.flip px py s.cfg.layers s.composite.layers 0 := by
  have := copyLayers_pri (flip := s.flip) (cfg := s.cfg) hx hy s.cfg.layers s.composite.layers
    ⟨Memory.tabulate s.cfg.screenSize (fun _ => s.cfg.bgPen), Memory.tabulate s.cfg.screenSize (fun _ => 0)⟩
  rw [Memory.read_tabulate _ (pixelKey_lt hx hy)] at this
  exact this

/-- The whole frame: the sprite pass over the tile picture. -/
theorem State.composite_fb : s.composite.fb =
    drawSprites s.cfg s.flip s.spr s.compositeTiles.pri s.cfg.nspr s.compositeTiles.fb := rfl

theorem State.composite_pri : s.composite.pri = s.compositeTiles.pri := rfl

end Sys2Proof.Machine
end

