-- ==== Sys2Proof/Laws/Decode.lean ====
section
/-!
SUPPORT. Laws/Decode.lean: the fields of a joined command word (`30_encoding.md` R92).
-/

namespace Sys2Proof

variable (op sel : BitVec 4) (off : BitVec 16) (data : Byte)

@[simp] theorem opField_joinFields : opField (joinFields op sel off data) = op := by
  unfold opField joinFields
  refine (BitVec.extractLsb'_append_eq_of_le (xhi := op ++ sel ++ off) (xlo := data) (by omega)).trans ?_
  refine (BitVec.extractLsb'_append_eq_of_le (xhi := op ++ sel) (xlo := off) (by omega)).trans ?_
  exact (BitVec.extractLsb'_append_eq_of_le (xhi := op) (xlo := sel) (by omega)).trans BitVec.extractLsb'_eq_self

@[simp] theorem selField_joinFields : selField (joinFields op sel off data) = sel := by
  unfold selField joinFields
  refine (BitVec.extractLsb'_append_eq_of_le (xhi := op ++ sel ++ off) (xlo := data) (by omega)).trans ?_
  refine (BitVec.extractLsb'_append_eq_of_le (xhi := op ++ sel) (xlo := off) (by omega)).trans ?_
  exact (BitVec.extractLsb'_append_eq_of_add_le (xhi := op) (xlo := sel) (by omega)).trans BitVec.extractLsb'_eq_self

@[simp] theorem offField_joinFields : offField (joinFields op sel off data) = off := by
  unfold offField joinFields
  refine (BitVec.extractLsb'_append_eq_of_le (xhi := op ++ sel ++ off) (xlo := data) (by omega)).trans ?_
  exact (BitVec.extractLsb'_append_eq_of_add_le (xhi := op ++ sel) (xlo := off) (by omega)).trans BitVec.extractLsb'_eq_self

@[simp] theorem dataField_joinFields : dataField (joinFields op sel off data) = data := by
  unfold dataField joinFields
  exact (BitVec.extractLsb'_append_eq_of_add_le (xhi := op ++ sel ++ off) (xlo := data) (by omega)).trans
    BitVec.extractLsb'_eq_self

/-- Joining the fields of a word gives the word back. -/
theorem joinFields_fields (w : CmdWord) : joinFields (opField w) (selField w) (offField w) (dataField w) = w := by
  unfold joinFields opField selField offField dataField
  have h1 : w.extractLsb' 28 4 ++ w.extractLsb' 24 4 = w.extractLsb' 24 8 :=
    BitVec.extractLsb'_append_extractLsb'_eq_extractLsb' (by omega)
  have h2 : w.extractLsb' 24 8 ++ w.extractLsb' 8 16 = w.extractLsb' 8 24 :=
    BitVec.extractLsb'_append_extractLsb'_eq_extractLsb' (by omega)
  have h3 : w.extractLsb' 8 24 ++ w.extractLsb' 0 8 = w.extractLsb' 0 32 :=
    BitVec.extractLsb'_append_extractLsb'_eq_extractLsb' (by omega)
  rw [h1, h2, h3]
  exact BitVec.extractLsb'_eq_self

@[simp] theorem pixelX_append (x y : Byte) : pixelX (y ++ x) = x := by
  unfold pixelX
  exact (BitVec.extractLsb'_append_eq_of_add_le (xhi := y) (xlo := x) (by omega)).trans BitVec.extractLsb'_eq_self

@[simp] theorem pixelY_append (x y : Byte) : pixelY (y ++ x) = y := by
  unfold pixelY
  exact (BitVec.extractLsb'_append_eq_of_le (xhi := y) (xlo := x) (by omega)).trans BitVec.extractLsb'_eq_self

/-- The two halves of an offset joined give it back. -/
theorem pixelY_append_pixelX (off : BitVec 16) : pixelY off ++ pixelX off = off := by
  unfold pixelX pixelY
  have h : off.extractLsb' 8 8 ++ off.extractLsb' 0 8 = off.extractLsb' 0 16 :=
    BitVec.extractLsb'_append_extractLsb'_eq_extractLsb' (by omega)
  rw [h]
  exact BitVec.extractLsb'_eq_self

/-- Masking with `0xF0000000` keeps the opcode bits alone (R93). -/
theorem getLsbD_and_opMask (w : CmdWord) {i : Nat} (hi : i < 32) :
    (w &&& 0xF0000000#32).getLsbD i = (decide (28 ≤ i) && w.getLsbD i) := by
  rw [BitVec.getLsbD_and, Bool.and_comm]
  congr 1
  interval_cases i <;> decide

namespace Machine

/-- A 32-bit row's bits are the command word. -/
theorem tableWord_toNat (w : CmdWord) : tableWord 32 w.toNat = w := by
  apply BitVec.eq_of_toNat_eq
  rw [tableWord, Nat.mod_eq_of_lt w.isLt, BitVec.toNat_ofNat, Nat.mod_eq_of_lt w.isLt]

end Machine

end Sys2Proof
end

