-- ==== Sys2Proof/Laws/PerInstr.lean ====
section
/-!
SUPPORT. Laws/PerInstr.lean: what is said of every command as syntax, constructor by constructor.
-/

namespace Sys2Proof.Laws

/-- The word of a command matches the opcode-table row of its mnemonic (`30_encoding.md` R93). -/
def EncodedRow.Statement (i : Instr) : Prop :=
  i.wf = true ∧ ∃ r ∈ opcodeTable, r.mnemonic = i.mnemonic ∧ r.accepts (encode i) = true

/-- A joined word with opcode `op` matches a row of mask `0xF0000000` whose pattern is that opcode over zeros. -/
theorem accepts_joinFields (name : String) (f : Format) (op sel : BitVec 4) (off : BitVec 16) (data : Byte) :
    OpcodeRow.accepts ⟨name, f, joinFields op 0 0 0, 0xF0000000⟩ (joinFields op sel off data) = true := by
  simp only [OpcodeRow.accepts, decide_eq_true_eq]
  have key : ∀ (s : BitVec 4) (o : BitVec 16) (d : Byte) (i : Nat), 28 ≤ i → i < 32 →
      (joinFields op s o d).getLsbD i = op.getLsbD (i - 28) := by
    intro s o d i h1 h2
    have := congrArg (fun b => BitVec.getLsbD b (i - 28)) (opField_joinFields op s o d)
    simp only [opField, BitVec.getLsbD_extractLsb', show 28 + (i - 28) = i by omega] at this
    simpa [show i - 28 < 4 by omega] using this
  have low : ∀ i, i < 28 → (joinFields op 0 0 0).getLsbD i = false := by
    intro i hi
    rcases Nat.lt_or_ge i 8 with h8 | h8
    · have := congrArg (fun b => BitVec.getLsbD b i) (dataField_joinFields op 0 0 0)
      simpa [dataField, BitVec.getLsbD_extractLsb', h8] using this
    rcases Nat.lt_or_ge i 24 with h24 | h24
    · have := congrArg (fun b => BitVec.getLsbD b (i - 8)) (offField_joinFields op 0 0 0)
      simpa [offField, BitVec.getLsbD_extractLsb', show 8 + (i - 8) = i by omega, show i - 8 < 16 by omega] using this
    · have := congrArg (fun b => BitVec.getLsbD b (i - 24)) (selField_joinFields op 0 0 0)
      simpa [selField, BitVec.getLsbD_extractLsb', show 24 + (i - 24) = i by omega, show i - 24 < 4 by omega] using this
  apply BitVec.eq_of_getLsbD_eq
  intro i hi
  refine (getLsbD_and_opMask _ hi).trans ?_
  by_cases h : 28 ≤ i
  · rw [key _ _ _ i h hi, key _ _ _ i h hi]
    simp [h]
  · rw [low i (by omega)]
    simp [h]

theorem EncodedRow.nop : EncodedRow.Statement .nop :=
  ⟨rfl, _, by simp [opcodeTable]; decide, rfl, accepts_joinFields "NOP" .n 0x0 0 0 0⟩

theorem EncodedRow.twr (sel : BitVec 4) (off : BitVec 16) (data : Byte) : EncodedRow.Statement (.twr sel off data) :=
  ⟨rfl, _, by simp [opcodeTable]; decide, rfl, accepts_joinFields "TWR" .lw 0x1 sel off data⟩

theorem EncodedRow.awr (sel : BitVec 4) (off : BitVec 16) (data : Byte) : EncodedRow.Statement (.awr sel off data) :=
  ⟨rfl, _, by simp [opcodeTable]; decide, rfl, accepts_joinFields "AWR" .lw 0x2 sel off data⟩

theorem EncodedRow.trd (sel : BitVec 4) (off : BitVec 16) : EncodedRow.Statement (.trd sel off) :=
  ⟨rfl, _, by simp [opcodeTable]; decide, rfl, accepts_joinFields "TRD" .lr 0x3 sel off 0⟩

theorem EncodedRow.ard (sel : BitVec 4) (off : BitVec 16) : EncodedRow.Statement (.ard sel off) :=
  ⟨rfl, _, by simp [opcodeTable]; decide, rfl, accepts_joinFields "ARD" .lr 0x4 sel off 0⟩

theorem EncodedRow.swr (off : BitVec 16) (data : Byte) : EncodedRow.Statement (.swr off data) :=
  ⟨rfl, _, by simp [opcodeTable]; decide, rfl, accepts_joinFields "SWR" .sw 0x5 0 off data⟩

theorem EncodedRow.srd (off : BitVec 16) : EncodedRow.Statement (.srd off) :=
  ⟨rfl, _, by simp [opcodeTable]; decide, rfl, accepts_joinFields "SRD" .sr 0x6 0 off 0⟩

theorem EncodedRow.rwr (sel : BitVec 4) (off : BitVec 16) (data : Byte) : EncodedRow.Statement (.rwr sel off data) :=
  ⟨rfl, _, by simp [opcodeTable]; decide, rfl, accepts_joinFields "RWR" .lw 0x7 sel off data⟩

theorem EncodedRow.rrd (sel : BitVec 4) (off : BitVec 16) : EncodedRow.Statement (.rrd sel off) :=
  ⟨rfl, _, by simp [opcodeTable]; decide, rfl, accepts_joinFields "RRD" .lr 0x8 sel off 0⟩

theorem EncodedRow.fref : EncodedRow.Statement .fref :=
  ⟨rfl, _, by simp [opcodeTable]; decide, rfl, accepts_joinFields "FREF" .n 0x9 0 0 0⟩

theorem EncodedRow.pchg : EncodedRow.Statement .pchg :=
  ⟨rfl, _, by simp [opcodeTable]; decide, rfl, accepts_joinFields "PCHG" .n 0xA 0 0 0⟩

theorem EncodedRow.comp : EncodedRow.Statement .comp :=
  ⟨rfl, _, by simp [opcodeTable]; decide, rfl, accepts_joinFields "COMP" .n 0xB 0 0 0⟩

theorem EncodedRow.pxrd (x y : Byte) : EncodedRow.Statement (.pxrd x y) :=
  ⟨rfl, _, by simp [opcodeTable]; decide, rfl, accepts_joinFields "PXRD" .p 0xC 0 (y ++ x) 0⟩

theorem EncodedRow.drd (sel : BitVec 4) (off : BitVec 16) : EncodedRow.Statement (.drd sel off) :=
  ⟨rfl, _, by simp [opcodeTable]; decide, rfl, accepts_joinFields "DRD" .lr 0xD sel off 0⟩

theorem EncodedRow.rsvdE : EncodedRow.Statement .rsvdE :=
  ⟨rfl, _, by simp [opcodeTable]; decide, rfl, accepts_joinFields "RSVD_E" .reserved 0xE 0 0 0⟩

theorem EncodedRow.rsvdF : EncodedRow.Statement .rsvdF :=
  ⟨rfl, _, by simp [opcodeTable]; decide, rfl, accepts_joinFields "RSVD_F" .reserved 0xF 0 0 0⟩

end Sys2Proof.Laws
end

