-- ==== Sys2Proof/Laws/Reset.lean ====
section
/-!
SUPPORT. Laws/Reset.lean: `State.reset` is one of the states R38 allows: the memories hold the unlisted byte throughout (log 3).
-/

namespace Sys2Proof.Machine

theorem Layer.blank_eq (l : Nat) (c : LayerCfg) : Layer.blank c = Layer.afterReset (fun _ _ => Memory.unlisted) l c := by
  simp [Layer.blank, Layer.afterReset, Memory.tabulate_unlisted]

theorem layersBlank_eq (k : Nat) (cs : List LayerCfg) :
    cs.map Layer.blank = layersAfterReset (fun _ _ => Memory.unlisted) k cs := by
  induction cs generalizing k with
  | nil => rfl
  | cons c cs ih => rw [List.map_cons, layersAfterReset, ← ih, ← Layer.blank_eq]

theorem State.reset_eq : State.reset = State.afterReset ⟨tc1, by decide⟩ (fun _ _ => Memory.unlisted) [] 0 := by
  simp [State.reset, State.afterReset, Memory.tabulate_unlisted, layersBlank_eq 0]

end Sys2Proof.Machine
end

