-- ==== Sys2Proof/Tests/Slice0.lean ====
section
/-!
SUPPORT. Tests/Slice0.lean: small tests with expected results from `95_test_vectors.md` (V1 to V48, P1, P2) or from a rule's worked
example, ill-formed configurations the checks refuse, and one witness for the hypotheses of each obligation that has any.
-/

namespace Sys2Proof.Tests

open Sys2Proof.Machine

/-! ### Words written out from R92 and R93 -/

theorem test_decode_nop : decode 0x0ABCDEF1 = .nop := by decide                       -- V4
theorem test_decode_twr : decode 0x1000052A = .twr 0 5 0x2A := by decide              -- V1
theorem test_decode_awr : decode 0x21000347 = .awr 1 3 0x47 := by decide              -- V2
theorem test_decode_trd : decode 0x300001FF = .trd 0 1 := by decide                   -- V8
theorem test_decode_ard : decode 0x4F000000 = .ard 15 0 := by decide                  -- V11
theorem test_decode_swr : decode 0x5F000177 = .swr 1 0x77 := by decide                -- V7
theorem test_decode_srd : decode 0x60000900 = .srd 9 := by decide                     -- V12
theorem test_decode_rwr : decode 0x79000001 = .rwr 9 0 1 := by decide                 -- V9
theorem test_decode_rrd : decode 0x80010000 = .rrd 0 256 := by decide                 -- V24
theorem test_decode_fref : decode 0x90000000 = .fref := by decide                     -- V25
theorem test_decode_pchg : decode 0xA0000000 = .pchg := by decide                     -- V25
theorem test_decode_comp : decode 0xB1234567 = .comp := by decide                     -- V5
theorem test_decode_pxrd : decode 0xC0020300 = .pxrd 3 2 := by decide                 -- V3
theorem test_decode_drd : decode 0xD1000300 = .drd 1 3 := by decide                   -- V13
theorem test_decode_rsvdE : decode 0xE0000000 = .rsvdE := by decide                   -- V6
theorem test_decode_rsvdF : decode 0xFFFFFFFF = .rsvdF := by decide                   -- V6

/-- Bits beyond one command word are no command (R91). -/
theorem test_decode_too_many_bits : decodeTableWord 40 0x1000052A = none := by decide

/-! ### Assembler text (R97, R98) -/

/-- "Worked example: `TWR 0, 5, 0x2A` is `0x1000052A`" (R97). -/
theorem test_assemble_twr :
    assemble .four [['T', 'W', 'R', ' ', '0', ',', ' ', '5', ',', ' ', '0', 'x', '2', 'A', ' ', ';', 'c']] = .ok [0x1000052A] := by
  decide

/-- `RRD 0, STATUS` is `0x80000100` (V20). -/
theorem test_assemble_register_name :
    assemble .four [['R', 'R', 'D', ' ', '0', ',', 'S', 'T', 'A', 'T', 'U', 'S']] = .ok [0x80000100] := by decide

/-- R97 gives an unsigned operand no minus sign (log 15). -/
theorem test_assemble_no_minus : assemble .four [['S', 'R', 'D', ' ', '-', '0']] = .error .badOperands := by decide

/-- `v` is 0..255 (R97). -/
theorem test_assemble_out_of_range :
    assemble .four [['S', 'W', 'R', ' ', '0', ',', '2', '5', '6']] = .error .outOfRange := by decide

/-- `SPRITE16` needs `SPR_STRIDE = 16` (R98). -/
theorem test_assemble_stride :
    assemble .four [['S', 'P', 'R', 'I', 'T', 'E', '1', '6', ' ', '0', ',', '-', '1', ',', '1', ',', '7', ',', '3', ',', '1', ',', '2']] =
      .error .wrongStride := by decide

/-- Steps 69 to 77 of P3: `SPRITE16 0, -1, 1, 7, 3, 0x85, 0x02`. -/
theorem test_pseudo_sprite16 :
    ((Pseudo.sprite16 0 (-1) 1 7 3 0x85 0x02).expand).map encode =
      [0x500000FF, 0x500001FF, 0x50000201, 0x50000300, 0x50000407, 0x50000500, 0x50000603, 0x50000785, 0x50000802] := by decide

/-! ### Configurations the checks refuse (R4, R5, R8, R9) -/

theorem test_tc1_is_wellFormed : tc1.wf = true := by decide

/-- A configuration with one layer changed. -/
def withLayer (f : LayerCfg → LayerCfg) : Cfg := { tc1 with layers := [f (tc1Layer none 1)] }

theorem test_wf_refuses_no_layer : ({ tc1 with layers := [] } : Cfg).wf = false := by decide
theorem test_wf_refuses_nine_layers : ({ tc1 with layers := List.replicate 9 (tc1Layer none 1) } : Cfg).wf = false := by decide
theorem test_wf_refuses_width_zero : ({ tc1 with screenW := 0 } : Cfg).wf = false := by decide
theorem test_wf_refuses_width_257 : ({ tc1 with screenW := 257 } : Cfg).wf = false := by decide
theorem test_wf_refuses_height_257 : ({ tc1 with screenH := 257 } : Cfg).wf = false := by decide
theorem test_wf_refuses_tile_of_no_column : (withLayer (fun c => { c with tileW := 0, tgfx := [] })).wf = false := by decide
theorem test_wf_refuses_map_of_no_row : (withLayer (fun c => { c with mapH := 0 })).wf = false := by decide
theorem test_wf_refuses_65792_tiles : (withLayer (fun c => { c with mapW := 257, mapH := 256 })).wf = false := by decide
theorem test_wf_refuses_no_pattern : (withLayer (fun c => { c with npat := 0, tgfx := [] })).wf = false := by decide
theorem test_wf_refuses_pattern_outside : (withLayer (fun c => { c with tgfx := [(32, 1)] })).wf = false := by decide
theorem test_wf_refuses_pen_outside : (withLayer (fun c => { c with tpen := [(4096, 1)] })).wf = false := by decide
theorem test_wf_refuses_no_sprite : ({ tc1 with nspr := 0 } : Cfg).wf = false := by decide
theorem test_wf_refuses_65540_sprite_bytes : ({ tc1 with nspr := 16385 } : Cfg).wf = false := by decide
theorem test_wf_refuses_cell_of_no_row : ({ tc1 with cellH := 0, sgfx := [] } : Cfg).wf = false := by decide
theorem test_wf_refuses_no_sprite_pattern : ({ tc1 with nspat := 0, sgfx := [] } : Cfg).wf = false := by decide
theorem test_wf_refuses_sprite_pen_outside : ({ tc1 with spen := [(4096, 1)] } : Cfg).wf = false := by decide
theorem test_wf_refuses_short_layout : ({ tc1 with layout := [0, 1] } : Cfg).wf = false := by decide
theorem test_wf_refuses_second_draw_of_no_record : ({ tc1 with doubleDraw := [2] } : Cfg).wf = false := by decide

/-- The constructor refuses, and names what is wrong (R222): no sprite record, and layer 0 without a pattern. -/
theorem test_build_refuses (content : Config.Store → Nat → Byte) :
    State.build { tc1 with nspr := 0 } content = .refused (.illFormedConfig [.sprites]) ∧
    State.build (withLayer (fun c => { c with npat := 0, tgfx := [] })) content = .refused (.illFormedConfig [.layerPatterns 0]) :=
  ⟨rfl, rfl⟩

/-- The constructor builds TC1. -/
theorem test_build_tc1 : (match State.build tc1 (fun _ a => BitVec.ofNat 8 a) with
    | .next t => some (Memory.read t.spr 7, t.cfg.nspr)
    | .fault _ => none
    | .refused _ => none) = some (7, 2) := by decide

/-- Every term of `Instr` is well formed: an operand is a bit vector of its field's width (R99). -/
theorem test_instr_wf : (Instr.twr 15 0xFFFF 0xFF).wf = true := by decide

/-! ### One step -/

/-- One step on a word from the port, and a view of the state it leaves. -/
def stepView {α : Type} (s : State) (w : Nat) (view : State → α) : Option α :=
  match step (s.withFetchWord 32 w) with
  | .next t => some (view t)
  | .fault _ => none
  | .refused _ => none

/-- The memories of program P1's end (TC1), every tile still dirty: the next `COMP` draws P1's last frame. -/
def loaded : State :=
  let layer (tm am : Memory) : Layer := { Layer.blank (tc1Layer none 1) with tm := tm, am := am }
  { State.reset with layers := [layer [(1, 3), (2, 2), (3, 3)] [(0, 1), (1, 1), (2, 2), (3, 2)], layer [(0, 4), (1, 4), (3, 4)] []] }

/-- The same with every dirty bit 0. -/
def clean : State := { loaded with layers := loaded.layers.map (fun y => { y with dirty := [] }) }

/-- The same with the two sprites of program P2. -/
def withSprites : State := { loaded with spr := [(0, 1), (1, 1), (2, 1), (3, 0x82), (4, 2), (5, 2), (7, 0xA1)] }

/-- The tile byte and the dirty bits of a layer. -/
def tileView (l i : Nat) (s : State) : Option (Byte × Byte × List Nat) :=
  (s.layers[l]?).map (fun y => (Memory.read y.tm i, Memory.read y.am i, y.dirty))

/-- V10: index `5 mod 4 = 1`. -/
theorem test_twr_wraps : stepView clean 0x1000052A (tileView 0 1) = some (some (0x2A, 0x01, [1])) := by decide
/-- P1 step 21's form: the byte that stands there marks nothing. -/
theorem test_twr_same_byte : stepView clean 0x10000103 (tileView 0 1) = some (some (0x03, 0x01, [])) := by decide
/-- V14: `AWR 0, 1, 0x41`. -/
theorem test_awr_marks : stepView clean 0x20000141 (tileView 0 1) = some (some (0x03, 0x41, [1])) := by decide
/-- V14: `AWR 0, 1, 0x01` where `0x01` stands. -/
theorem test_awr_same_byte : stepView clean 0x20000101 (tileView 0 1) = some (some (0x03, 0x01, [])) := by decide
/-- V11: layer 2 is not there. -/
theorem test_twr_unmapped : stepView clean 0x12000011 (fun t => decide (t.layers = clean.layers)) = some true := by decide
/-- V10's wrap on P1's end state: `65533 mod 4 = 1`, `TM[0][1] = 0x03`. -/
theorem test_trd_wraps : stepView clean 0x30FFFD00 State.rsp = some (some 0x03) := by decide
/-- V11. -/
theorem test_trd_unmapped : stepView clean 0x32000000 State.rsp = some (some 0xFF) := by decide
/-- P1's end state: `AM[0][3] = 0x02`. -/
theorem test_ard : stepView clean 0x40000300 State.rsp = some (some 0x02) := by decide
/-- V11. -/
theorem test_ard_unmapped : stepView clean 0x4F000000 State.rsp = some (some 0xFF) := by decide
/-- V13. -/
theorem test_drd_after_reset : stepView State.reset 0xD1000300 State.rsp = some (some 0x01) := by decide
/-- P1 step 20. -/
theorem test_drd_clean : stepView clean 0xD0000100 State.rsp = some (some 0x00) := by decide
/-- V12: `9 mod 8 = 1`. -/
theorem test_swr_wraps : stepView State.reset 0x50000977 State.spr = some [(1, 0x77)] := by decide
/-- V7: `sel = 15` is ignored. -/
theorem test_swr_ignores_sel : stepView State.reset 0x5F000177 State.spr = some [(1, 0x77)] := by decide
/-- V12's read on P2's sprites: `SPR[11 mod 8] = 0x82`. -/
theorem test_srd_wraps : stepView withSprites 0x60000B00 State.rsp = some (some 0x82) := by decide
/-- V15. -/
theorem test_pxrd_off_screen : stepView State.reset 0xC0040000 State.rsp = some (some 0xFF) := by decide
/-- R127: `PXRD 3, 2` is `FB[2][3]`, row first. -/
theorem test_pxrd : stepView { State.reset with fb := [(11, 0x20), (14, 0x21)] } 0xC0020300 State.rsp = some (some 0x20) := by decide
/-- V26. -/
theorem test_nop : stepView State.reset 0x00000000 (fun t => decide (t = State.reset)) = some true := by decide
/-- V20: `0xFE` leaves `FLIP` and `FULLREF` alone. -/
theorem test_rwr_reserved_bits : stepView State.reset 0x700000FE (fun t => (t.flip, t.fullref)) = some (false, false) := by decide
/-- V9 and V21: `sel` ignored, a change of `FLIP` requests a refresh. -/
theorem test_rwr_flip : stepView State.reset 0x79000001 (fun t => (t.flip, t.fullref)) = some (true, true) := by decide
/-- V24: register 256 is unmapped. -/
theorem test_rrd_unmapped : stepView State.reset 0x80010000 State.rsp = some (some 0xFF) := by decide
/-- V25: `STATUS` with both requests. -/
theorem test_rrd_status : stepView { State.reset with fullref := true, palchg := true } 0x80000100 State.rsp = some (some 0x03) := by decide
/-- V25. -/
theorem test_fref : stepView clean 0x90000000 (fun t => (t.fullref, t.palchg)) = some (true, false) := by decide
/-- V25. -/
theorem test_pchg : stepView clean 0xA0000000 (fun t => (t.fullref, t.palchg)) = some (false, true) := by decide
/-- V6. -/
theorem test_rsvdE : stepView clean 0xE0000000 (fun t => (t.rsp, decide ({ t with rsp := none } = clean))) = some (some 0xFF, true) := by decide
/-- V6. -/
theorem test_rsvdF : stepView clean 0xFFFFFFFF (fun t => (t.rsp, decide ({ t with rsp := none } = clean))) = some (some 0xFF, true) := by decide

/-- P2 step 9: rows 1 and 2 of the framebuffer, sprites over tiles. -/
theorem test_comp : stepView withSprites 0xB0000000 (fun t => (List.range 8).map (fun k => Memory.read t.fb (4 + k))) =
    some [0x12, 0xA1, 0xA2, 0x12, 0x22, 0xA3, 0x91, 0x20] := by decide
/-- P2 step 13: rows 0 and 1 of the flipped frame. -/
theorem test_comp_flipped : stepView { withSprites with flip := true } 0xB0000000 (fun t => (List.range 8).map (fun k => Memory.read t.fb k)) =
    some [0x92, 0x93, 0x03, 0x02, 0x20, 0x91, 0xA3, 0x22] := by decide

/-! ### Rules with numbers (section 2.4 and 2.5 of the vectors) -/

/-- V31. -/
theorem test_tileCode : tileCode { tc1Layer none 1 with npat := 512 } 0x05 0x10 = 261 ∧
    tileCode { tc1Layer none 1 with npat := 512 } 0xFF 0x30 = 511 ∧ tileCode { tc1Layer none 1 with npat := 256 } 0x2A 0xCF = 0x2A := by
  decide
/-- V32. -/
theorem test_tilePlace : tilePlace { tc1Layer none 1 with mapW := 32, mapH := 32 } true 5 0 = ⟨26, 31, true, true⟩ ∧
    tilePlace { tc1Layer none 1 with mapW := 32, mapH := 32 } false 32 0x40 = ⟨0, 1, true, false⟩ ∧
    tilePlace { tc1Layer none 1 with mapW := 32, mapH := 32 } true 1023 0x80 = ⟨0, 0, true, false⟩ := by decide
/-- V33: `FLIPX` alone. -/
theorem test_redraw_flipX : (tileCells (tc1Layer none 1) false { Layer.blank (tc1Layer none 1) with tm := [(0, 1)], am := [(0, 0x43)] } 0) =
    [(0, 0x32), (1, 0x31), (4, 0x30), (5, 0x33)] := by decide
/-- V33: `FLIPY` alone. -/
theorem test_redraw_flipY : (tileCells (tc1Layer none 1) false { Layer.blank (tc1Layer none 1) with tm := [(0, 1)], am := [(0, 0x83)] } 0) =
    [(0, 0x33), (1, 0x30), (4, 0x31), (5, 0x32)] := by decide
/-- V35. -/
theorem test_layerSource : (List.range 4).map (fun x => sourceAxis false x 1 4 4) = [1, 2, 3, 0] ∧
    (List.range 4).map (fun x => sourceAxis true x 1 4 4) = [3, 0, 1, 2] ∧
    (List.range 4).map (fun x => sourceAxis true x 0xFFFF 8 8) = [1, 2, 3, 4] ∧
    (List.range 4).map (fun x => sourceAxis true x 0 512 256) = [256, 257, 258, 259] := by decide
/-- V40, second and third row. -/
theorem test_record4 : spriteRecord4 [(0, 2), (1, 2), (3, 0xA1)] 0 = ⟨2, 2, 0, 1, true, false, 0, 0, 0, true⟩ ∧
    spriteRecord4 [(4, 0xFF), (5, 0xFF), (6, 0xFF), (7, 0x7F)] 1 = ⟨255, 255, 255, 15, true, true, 0, 0, 0, false⟩ := by decide
/-- V41, first and third row. -/
theorem test_record16 : spriteRecord16 [(0, 0xFF), (1, 0xFF), (2, 1), (4, 7), (6, 3), (7, 0x85), (8, 2)] 0 =
      ⟨-1, 1, 7, 3, false, false, 1, 1, 2, true⟩ ∧
    spriteRecord16 [(17, 0x80), (18, 0xFF), (19, 0x7F), (20, 0x34), (21, 0x12), (22, 0xF9), (23, 0x2E), (24, 0xFF)] 1 =
      ⟨-32768, 32767, 0x1234, 9, true, false, 2, 3, 0xFF, false⟩ := by decide
/-- V42. -/
theorem test_cellCode : cellCode { tc1 with nspat := 65536 } 0x1237 2 2 0 1 = 0x1236 ∧ cellCode { tc1 with nspat := 64 } 7 1 2 0 0 = 5 ∧
    cellCode { tc1 with nspat := 256 } 0xFF 4 4 2 0 = 0xF4 ∧ cellCode { tc1 with nspat := 64 } 0x47 1 1 0 0 = 7 := by decide
/-- V43. -/
theorem test_spritePlace : spritePlace { tc1 with screenW := 256, screenH := 256 } true 10 250 16 16 false true = ⟨230, -10, true, false⟩ ∧
    spritePlace tc1 true 255 255 2 2 false false = ⟨-253, -253, true, true⟩ := by decide
/-- V47: the second draw of a record at `(129, 130)` stands at `(1, 2)`. -/
theorem test_second_draw : secondPlace ⟨129, 130, false, false⟩ = ⟨1, 2, false, false⟩ := by decide

/-! ### Witnesses: the hypotheses of each obligation hold together, each clause at a boundary of its range -/

/-- A refresh is pending: coherent whatever the bitmaps hold. -/
def pending : State := { State.reset with fullref := true }

theorem pending_coherent (s : State) (h : s.fullref = true) : s.Coherent :=
  fun _ _ _ _ _ _ => .inr (.inl h)

theorem witness_reencode : (0x1#4 ∈ [0x1#4, 0x2#4, 0x7#4]) ∧ (0xD#4 ∈ [0x3#4, 0x4#4, 0x8#4, 0xD#4]) ∧
    (0xC#4 ∈ [0x6#4, 0xC#4]) ∧ 0xF#4 ∈ [0x0#4, 0x9#4, 0xA#4, 0xB#4, 0xE#4, 0xF#4] := by decide

theorem witness_twr : State.reset.wf = true ∧ State.reset.cfg.nLayers ≤ (2#4).toNat ∧
    State.reset.layerAt (1#4).toNat = some (tc1Layer (some 0) 2, Layer.blank (tc1Layer (some 0) 2)) ∧
    Memory.read (Layer.blank (tc1Layer (some 0) 2)).tm (tileIndex (tc1Layer (some 0) 2) 7) = 0 := by decide

theorem witness_awr : clean.wf = true ∧ clean.cfg.nLayers ≤ (2#4).toNat ∧ (clean.layerAt (1#4).toNat).isSome = true ∧
    (clean.layerAt (1#4).toNat).map (fun cy => Memory.read cy.2.am (tileIndex cy.1 3)) = some 0 := by decide

theorem witness_layerReads : clean.cfg.nLayers ≤ (2#4).toNat ∧ (clean.layerAt (1#4).toNat).isSome = true := by decide

theorem witness_layersBelowCount : State.reset.wf = true ∧ 1 < State.reset.cfg.nLayers ∧ ¬ 2 < State.reset.cfg.nLayers := by decide

theorem witness_swr : withSprites.wf = true ∧ spriteIndex withSprites.cfg 8 = 0 := by decide

theorem witness_pxrd : ((3#8).toNat < State.reset.cfg.screenW ∧ (3#8).toNat < State.reset.cfg.screenH) ∧
    State.reset.cfg.screenW ≤ (4#8).toNat ∧ State.reset.cfg.screenH ≤ (4#8).toNat := by decide

theorem witness_readAnswersLastWrite : State.reset.wf = true ∧ (1#4).toNat < State.reset.cfg.nLayers := by decide

theorem witness_rewriting : State.reset.wf = true ∧ (1#4).toNat < State.reset.cfg.nLayers ∧
    exec (.trd 1 3) State.reset = .next { State.reset with rsp := some 0 } ∧
    exec (.ard 1 3) State.reset = .next { State.reset with rsp := some 0 } ∧
    exec (.srd 8) State.reset = .next { State.reset with rsp := some 0 } ∧
    exec (.rrd 1 5) State.reset = .next { State.reset with rsp := some 0 } ∧
    exec (.rrd 1 6) State.reset = .next { State.reset with rsp := some 0xFF } :=
  ⟨by decide, by decide, rfl, rfl, rfl, rfl, rfl⟩

theorem witness_reads : isRead (.trd 0 0) = true ∧ isRead (.ard 0 0) = true ∧ isRead (.srd 0) = true ∧ isRead (.rrd 0 0) = true ∧
    isRead (.drd 0 0) = true ∧ isRead (.pxrd 0 0) = true := by decide

theorem witness_registers : 6 ≤ (6#16).toNat ∧ State.reset.cfg.nLayers ≤ (2#4).toNat ∧
    (State.reset.layerAt (1#4).toNat).isSome = true := by decide

theorem witness_stores : withSprites.wf = true ∧ (∀ off v, Instr.nop ≠ .swr off v) ∧ (∀ sel off v, Instr.nop ≠ .rwr sel off v) ∧
    Instr.nop ≠ .comp ∧ (withSprites.layerAt 1).isSome = true ∧ (∀ off v, Instr.nop ≠ .twr (BitVec.ofNat 4 1) off v) ∧
    (∀ off v, Instr.nop ≠ .awr (BitVec.ofNat 4 1) off v) :=
  ⟨by decide, by simp, by simp, by decide, by decide, by simp, by simp⟩

theorem witness_dirtyBits : ({ clean with fullref := true, palchg := true } : State).wf = true ∧ Instr.twr 0 1 0x2A ≠ .comp ∧
    (clean.layerAt 0).isSome = true ∧ stepView clean 0x1000052A (tileView 0 1) = some (some (0x2A, 0x01, [1])) := by decide

theorem witness_step : ({ State.reset with port := [.command 0xB0000000, .rst] } : State).port = .command 0xB0000000 :: [.rst] := by decide

theorem witness_idle : State.reset.port = [] := by decide

theorem witness_illFormed : ({ tc1 with nspr := 0 } : Cfg).wf = false ∧ tc1.wf = true ∧ 7 < tc1.sprBytes := by decide

theorem witness_resetEvent : ({ clean with port := [.rst] } : State).port = .rst :: [] ∧
    clean.cfg.layers[1]? = some (tc1Layer (some 0) 2) := by decide

theorem witness_launchValues : 7 < tc1.sprBytes ∧ 15 < tc1.screenSize ∧ tc1.layers[1]? = some (tc1Layer (some 0) 2) ∧
    3 < (tc1Layer (some 0) 2).nt ∧ 15 < (tc1Layer (some 0) 2).bmpSize := by decide

theorem witness_launchStates : (State.afterReset ⟨tc1, by decide⟩ (fun _ a => BitVec.ofNat 8 (a + 1)) [] 0).IsLaunch :=
  ⟨_, _, _, rfl⟩

theorem witness_stepKeeps : ({ pending with port := [.command 0xB0000000] } : State).wf = true ∧
    ({ pending with port := [.command 0xB0000000] } : State).Coherent :=
  ⟨by decide, pending_coherent _ rfl⟩

theorem witness_compFrame : loaded.wf = true ∧ loaded.layers[1]?.isSome = true := by decide

/-- First clause: the last pixel of the last tile, dirty. -/
theorem witness_compRedraws : loaded.wf = true ∧
    loaded.layerAt 1 = some (tc1Layer (some 0) 2, { Layer.blank (tc1Layer (some 0) 2) with tm := [(0, 4), (1, 4), (3, 4)] }) ∧
    3 < (tc1Layer (some 0) 2).nt ∧ loaded.toRedraw { Layer.blank (tc1Layer (some 0) 2) with tm := [(0, 4), (1, 4), (3, 4)] } 3 ∧ 1 < (tc1Layer (some 0) 2).tileW ∧
    1 < (tc1Layer (some 0) 2).tileH :=
  ⟨by decide, by decide, by decide, .inl (by decide), by decide, by decide⟩

/-- Second clause: with nothing to redraw, no pixel is in a redrawn rectangle. -/
theorem witness_compKeeps : clean.wf = true ∧ ∀ (y : Layer) (i k : Nat), y.dirty = [] → clean.toRedraw y i →
    ¬ inRect (tc1Layer none 1) clean.flip y i k := by
  refine ⟨by decide, fun y i k hy h => ?_⟩
  rcases h with h | h | h
  · simp [hy, DirtySet.has] at h
  · exact absurd h (by decide)
  · exact absurd h (by decide)

theorem witness_tileRectangle : (tc1Layer none 1).ok = true ∧ 3 < (tc1Layer none 1).nt ∧ 1 < (tc1Layer none 1).tileW ∧
    1 < (tc1Layer none 1).tileH ∧ 15 < (tc1Layer none 1).bmpSize := by decide

theorem witness_wholePicture : pending.wf = true ∧ pending.Coherent ∧ (pending.composite.layerAt 1).isSome = true :=
  ⟨by decide, pending_coherent _ rfl, by decide⟩

/-- First clause: at `(1, 0)` the frontmost layer shows pen 1; no layer stands in front of it. -/
theorem witness_frontmost : State.reset.wf = true ∧ 1 < State.reset.cfg.screenW ∧ 0 < State.reset.cfg.screenH ∧
    State.reset.compositeTiles.showsPen 1 1 0 0x01 ∧ ∀ l' > 1, ∀ pen', ¬ State.reset.compositeTiles.showsPen l' 1 0 pen' := by
  refine ⟨by decide, by decide, by decide, ⟨tc1Layer (some 0) 2, _, rfl, by decide, by decide⟩, ?_⟩
  rintro (_ | _ | l') h pen' ⟨c, y, hy, -⟩
  · omega
  · omega
  · simp [State.layerAt, State.compositeTiles, State.copyTiles, State.clearScreen, State.redraw, State.invalidate, State.reset, tc1] at hy

/-- One layer, transparent pen 0: at `(0, 0)` no layer is opaque. -/
def seeThrough : State := { State.reset with built := ⟨{ tc1 with layers := [tc1Layer (some 0) 1] }, by decide⟩, layers := [Layer.blank (tc1Layer (some 0) 1)] }

/-- Second clause. -/
theorem witness_background : seeThrough.wf = true ∧ 0 < seeThrough.cfg.screenW ∧ 0 < seeThrough.cfg.screenH ∧
    ∀ l pen, ¬ seeThrough.compositeTiles.showsPen l 0 0 pen := by
  refine ⟨by decide, by decide, by decide, ?_⟩
  rintro (_ | l) pen ⟨c, y, hy, hp, ht⟩
  · have e : seeThrough.compositeTiles.layerAt 0 = some (tc1Layer (some 0) 1, (seeThrough.compositeTiles.layers.head (by decide))) := by decide
    rw [e] at hy
    cases hy
    exact ht (by rw [hp]; decide)
  · simp [State.layerAt, State.compositeTiles, State.copyTiles, State.clearScreen, State.redraw, State.invalidate, seeThrough, State.reset, tc1] at hy

theorem witness_priority : State.reset.wf = true ∧ 3 < State.reset.cfg.screenW ∧ 3 < State.reset.cfg.screenH ∧ 7 < 8 := by decide

theorem witness_flippedScroll : 0 < 1 ∧ 3 < tc1.screenW := by decide

theorem sameMemory_of_layers {s t : State} (hc : s.cfg = t.cfg) (hs : s.spr = t.spr) (hl : s.layers = t.layers) : s.SameMemory t := by
  refine ⟨hc, hs, by rw [hl], fun l y z hy hz => ?_⟩
  rw [hl, hz] at hy
  cases hy
  exact ⟨rfl, rfl, rfl, rfl⟩

theorem witness_frameFunction : pending.wf = true ∧ ({ pending with palchg := true, fb := [(3, 7)] } : State).wf = true ∧ pending.Coherent ∧
    ({ pending with palchg := true, fb := [(3, 7)] } : State).Coherent ∧
    pending.SameMemory { pending with palchg := true, fb := [(3, 7)] } ∧
    pending.flip = ({ pending with palchg := true, fb := [(3, 7)] } : State).flip :=
  ⟨by decide, by decide, pending_coherent _ rfl, pending_coherent _ rfl, sameMemory_of_layers rfl rfl rfl, rfl⟩

theorem witness_flip : pending.wf = true ∧ ({ pending with flip := true } : State).wf = true ∧ pending.Coherent ∧
    ({ pending with flip := true } : State).Coherent ∧ pending.SameMemory { pending with flip := true } ∧ pending.flip = false ∧
    ({ pending with flip := true } : State).flip = true ∧ 3 < pending.cfg.screenW ∧ 3 < pending.cfg.screenH ∧ pending.cfg.doubleDraw = [] :=
  ⟨by decide, by decide, pending_coherent _ rfl, pending_coherent _ rfl, sameMemory_of_layers rfl rfl rfl, rfl, rfl, by decide, by decide, rfl⟩

theorem witness_drawSpriteAt : Memory.wf tc1.screenSize [(15, 0x20)] = true ∧ 3 < tc1.screenW ∧ 3 < tc1.screenH := by decide

/-- First clause: at `(3, 2)` of program P2 record 1 is transparent and record 0 is elsewhere; at `(2, 3)` record 1 draws. -/
theorem witness_lowestRecord : withSprites.wf = true ∧ 2 < withSprites.cfg.screenW ∧ 3 < withSprites.cfg.screenH ∧ 1 < withSprites.cfg.nspr ∧
    recordPen withSprites.cfg withSprites.flip withSprites.spr withSprites.composite.pri 1 2 3 = some 0x93 ∧
    (∀ m < 1, recordPen withSprites.cfg withSprites.flip withSprites.spr withSprites.composite.pri m 2 3 = none) ∧
    ∀ n < withSprites.cfg.nspr, recordPen withSprites.cfg withSprites.flip withSprites.spr withSprites.composite.pri n 3 2 = none := by
  decide

/-- V47: record 0 in `DOUBLE_DRAW` at `(129, 130)`, pattern 3, colour 3. -/
def drawnTwice : State := { loaded with built := ⟨{ tc1 with doubleDraw := [0] }, by decide⟩, spr := [(0, 0x81), (1, 0x82), (2, 0x03), (3, 0x83)] }

/-- The second draw of V47: `FB[2][1] = 0xB3` comes from record 0 at `(1, 2)`; its pixel at `(2, 2)` is transparent. -/
theorem witness_secondDraw : drawnTwice.wf = true ∧ 1 < drawnTwice.cfg.screenW ∧ 2 < drawnTwice.cfg.screenH ∧ 0 < drawnTwice.cfg.nspr ∧
    0 ∈ drawnTwice.cfg.doubleDraw ∧ (spriteRecord drawnTwice.cfg drawnTwice.spr 0).enable = true ∧
    recordPen drawnTwice.cfg drawnTwice.flip drawnTwice.spr drawnTwice.composite.pri 0 1 2 = some 0xB3 ∧
    (∀ m < 0, recordPen drawnTwice.cfg drawnTwice.flip drawnTwice.spr drawnTwice.composite.pri m 1 2 = none) ∧
    ∀ n < drawnTwice.cfg.nspr, recordPen drawnTwice.cfg drawnTwice.flip drawnTwice.spr drawnTwice.composite.pri n 2 2 = none := by
  decide

/-- The three forms of a record: disabled, drawn once, drawn twice. -/
theorem witness_recordForms : (spriteRecord loaded.cfg loaded.spr 0).enable = false ∧
    (spriteRecord withSprites.cfg withSprites.spr 1).enable = true ∧ 1 ∉ withSprites.cfg.doubleDraw ∧
    (spriteRecord drawnTwice.cfg drawnTwice.spr 0).enable = true ∧ 0 ∈ drawnTwice.cfg.doubleDraw := by decide

/-- A layer whose two axes differ, for the source of a layer pixel. -/
theorem witness_layerSource : ({ tc1Layer none 1 with mapW := 4, mapH := 1 } : LayerCfg).ok = true := by decide

/-- The last cell and its last pixel of a sprite of 2 by 2 cells; bit 1 is used by its cells, bit 2 is not. -/
theorem witness_spriteCells : 1 < (⟨2, 2, 7, 3, 0⟩ : SpriteImage).nx ∧ 1 < (⟨2, 2, 7, 3, 0⟩ : SpriteImage).ny ∧ 1 < tc1.cellW ∧ 1 < tc1.cellH ∧
    (∃ j < 2, ∃ k < 2, (tc1.layoutAt j k).testBit 1 = true) ∧ ∀ j < 2, ∀ k < 2, (tc1.layoutAt j k).testBit 2 = false := by decide

theorem witness_disabledSprites : loaded.wf = true ∧ ∀ n < loaded.cfg.nspr, (spriteRecord loaded.cfg loaded.spr n).enable = false := by decide

theorem witness_strides : tc1.stride = .four ∧ ({ tc1 with stride := .sixteen } : Cfg).stride = .sixteen := by decide

theorem witness_defaultLayout : tc1.layout = defaultLayout := by decide

end Sys2Proof.Tests
end

section
/-!
PROOFS. What every command and every step does, said once: a command is one change of the stores followed by one response, and a
step is one of three cases; hence no step stops, none changes the configuration, and each keeps the shape `State.wf`.
-/

namespace Sys2Proof.Machine

variable {s : State}

/-! ### The shared writes change no configuration -/

@[simp] theorem State.writeTile_cfg (s : State) (sel : BitVec 4) (off : BitVec 16) (v : Byte) :
    (s.writeTile sel off v).cfg = s.cfg := by
  unfold State.writeTile
  split <;> rfl

@[simp] theorem State.writeAttr_cfg (s : State) (sel : BitVec 4) (off : BitVec 16) (v : Byte) :
    (s.writeAttr sel off v).cfg = s.cfg := by
  unfold State.writeAttr
  split <;> rfl

@[simp] theorem State.writeReg_cfg (s : State) (r : Reg) (v : Byte) : (s.writeReg r v).cfg = s.cfg := by
  cases r <;> rfl

@[simp] theorem State.writeRegister_cfg (s : State) (sel : BitVec 4) (off : BitVec 16) (v : Byte) :
    (s.writeRegister sel off v).cfg = s.cfg := by
  unfold State.writeRegister
  split
  · exact State.writeReg_cfg s _ v
  · rfl

/-! ### What a command does -/

/-- The change a command makes to everything but the response; `exec_eq` ties it to `exec`. -/
def commandEffect (i : Instr) (s : State) : State :=
  match i with
  | .twr sel off v => s.writeTile sel off v
  | .awr sel off v => s.writeAttr sel off v
  | .swr off v => s.writeSprite off v
  | .rwr sel off v => s.writeRegister sel off v
  | .fref => s.requestRefresh
  | .pchg => s.notePalette
  | .comp => s.composite
  | .nop | .trd _ _ | .ard _ _ | .srd _ | .rrd _ _ | .pxrd _ _ | .drd _ _ | .rsvdE | .rsvdF => s

/-- The response a command gives (R96); `exec_eq` ties it to `exec`. -/
def commandResponse (i : Instr) (s : State) : Option Byte :=
  match i with
  | .trd sel off => some (s.readLayer sel off (fun y k => Memory.read y.tm k))
  | .ard sel off => some (s.readLayer sel off (fun y k => Memory.read y.am k))
  | .drd sel off => some (s.readLayer sel off dirtyByte)
  | .srd off => some (s.readSprite off)
  | .rrd sel off => some (s.readRegister sel off)
  | .pxrd x y => some (s.readPixel x.toNat y.toNat)
  | .rsvdE | .rsvdF => some s.cfg.fill
  | .nop | .twr _ _ _ | .awr _ _ _ | .swr _ _ | .rwr _ _ _ | .fref | .pchg | .comp => none

/-- Every command completes: its effect, then its response (R13, R96, R220). -/
theorem exec_eq (i : Instr) (s : State) : exec i s = .next ((commandEffect i s).respond (commandResponse i s)) := by
  cases i <;> rfl

theorem commandEffect_cfg (i : Instr) (s : State) : (commandEffect i s).cfg = s.cfg := by
  cases i with
  | twr sel off v => exact State.writeTile_cfg s sel off v
  | awr sel off v => exact State.writeAttr_cfg s sel off v
  | rwr sel off v => exact State.writeRegister_cfg s sel off v
  | swr | fref | pchg | comp => rfl
  | nop | trd | ard | srd | rrd | pxrd | drd | rsvdE | rsvdF => rfl

theorem commandEffect_wf (h : s.wf = true) (i : Instr) : (commandEffect i s).wf = true := by
  cases i with
  | twr sel off v => exact State.wf_writeTile h sel off v
  | awr sel off v => exact State.wf_writeAttr h sel off v
  | swr off v => exact State.wf_writeSprite h off v
  | rwr sel off v => exact State.wf_writeRegister h sel off v
  | fref => exact State.wf_requestRefresh h
  | pchg => exact State.wf_notePalette h
  | comp => exact State.wf_composite h
  | nop | trd | ard | srd | rrd | pxrd | drd | rsvdE | rsvdF => exact h

/-! ### What a step does -/

theorem step_of_idle (h : s.port = []) : step s = .next s := by
  simp only [step, State.take, h]

theorem step_of_rst {rest : List PortInput} (h : s.port = .rst :: rest) :
    step s = .next ({ s with port := rest } : State).takeReset := by
  simp only [step, State.take, h]

theorem step_of_command {w : CmdWord} {rest : List PortInput} (h : s.port = .command w :: rest) :
    step s = exec (decode w) { s with port := rest } := by
  simp only [step, State.take, h]

/-- What every step keeps: it completes, in the same configuration, and a well-shaped state stays so. -/
theorem step_completes (s : State) : ∃ t, step s = .next t ∧ t.cfg = s.cfg ∧ (s.wf = true → t.wf = true) := by
  match hp : s.port with
  | [] => exact ⟨s, step_of_idle hp, rfl, id⟩
  | .rst :: rest => exact ⟨_, step_of_rst hp, rfl, fun _ => State.wf_takeReset⟩
  | .command w :: rest =>
    refine ⟨_, (step_of_command hp).trans (exec_eq _ _), commandEffect_cfg (decode w) { s with port := rest }, fun hs => ?_⟩
    exact State.wf_respond (commandEffect_wf (s := { s with port := rest }) hs (decode w)) _

/-- A run goes on from the state its first step answers. -/
theorem run_succ_of_step {M : Host.Core} {a b : M.State} (h : M.step a = .next b) (k : Nat) : M.run (k + 1) a = M.run k b := by
  simp only [Host.Core.run, h]

/-! ### Machine construction -/

theorem State.isLaunch_afterReset (b : BuiltCfg) (content : Config.Store → Nat → Byte) (port : List PortInput) (k : Nat) :
    (State.afterReset b content port k).IsLaunch :=
  ⟨content, port, k, rfl⟩

/-! ### The obligations -/

/-- Settles O33: the shape is the invariant `step_completes` carries through each kind of step. -/
theorem stepKeepsShape : Obligations.StepKeepsShape := by
  intro s hs
  obtain ⟨t, hstep, -, hwf⟩ := step_completes s
  exact ⟨t, hstep, hwf hs⟩

/-- Settles O29, by induction on the number of steps. -/
theorem runsNeverStop : Obligations.RunsNeverStop := by
  intro k
  induction k with
  | zero => exact fun s => ⟨s, rfl, rfl⟩
  | succ k ih =>
    intro s
    obtain ⟨t, hstep, hcfg, -⟩ := step_completes s
    obtain ⟨u, hrun, hcfg'⟩ := ih t
    exact ⟨u, (run_succ_of_step (M := Sys2Proof.core) hstep k).trans hrun, hcfg'.trans hcfg⟩

/-- Settles O25: a word the host places is the oldest input, and its 32 table bits are the word itself. -/
theorem stepRunsTheDecodedCommand : Obligations.StepRunsTheDecodedCommand := by
  refine ⟨fun s w rest hp => step_of_command hp, fun s w => ?_⟩
  have hport : (s.withFetchWord 32 w.toNat).port = .command w :: s.port := by
    rw [State.withFetchWord, tableWord_toNat, State.issueFirst_port]
  exact step_of_command hport

/-- Settles O27: the list of failing checks is empty exactly when the configuration is well formed, which is the test of `State.build`. -/
theorem illFormedConfigIsRefused : Obligations.IllFormedConfigIsRefused := by
  refine ⟨fun cfg content h => ?_, fun cfg content h => ?_, fun s => s.built.ok⟩
  · obtain ⟨hwf, -⟩ | ⟨-, hbuild⟩ := State.build_cases cfg content
    · simp [hwf] at h
    · exact ⟨fun hnil => by simp [(Cfg.errors_eq_nil cfg).1 hnil] at h, hbuild⟩
  · obtain ⟨hwf, hbuild⟩ | ⟨hill, -⟩ := State.build_cases cfg content
    · exact ⟨(Cfg.errors_eq_nil cfg).2 h, _, hbuild, State.isLaunch_afterReset _ content [] 0, rfl, rfl,
        fun i hi => Memory.read_tabulate (content .spr) hi⟩
    · simp [hill] at h

end Sys2Proof.Machine
end

section
/-!
PROOFS. What a command does to one layer and to the flags, said once; hence which command owns which store (R25, R61) and how the
dirty bits move (R24, R32).
-/

namespace Sys2Proof.Machine

variable {s : State} {c : LayerCfg} {y z : Layer} {i : Instr} {l k : Nat}

/-! ### Layers are found again -/

/-- A command leaves as many layer records as there were. -/
theorem commandEffect_layers_length (hs : s.wf = true) (i : Instr) : (commandEffect i s).layers.length = s.layers.length := by
  have hbefore := (layersWf_iff.1 (State.wf_iff.1 hs).2.1).1
  have hafter := (layersWf_iff.1 (State.wf_iff.1 (commandEffect_wf hs i)).2.1).1
  rw [← hbefore, ← hafter, commandEffect_cfg]

/-- In a well-shaped state a layer of the configuration has a state under the same parameters. -/
theorem State.exists_layerAt (hs : s.wf = true) (hc : s.cfg.layers[l]? = some c) : ∃ y, s.layerAt l = some (c, y) := by
  obtain ⟨c', y, hy⟩ := State.layerAt_of_lt hs (List.getElem?_eq_some_iff.1 hc).1
  have hcc : c' = c := Option.some.inj ((State.layerAt_eq_some.1 hy).1.symm.trans hc)
  exact ⟨y, hcc ▸ hy⟩

/-- A layer found after a command was there before it. -/
theorem layerAt_before (hs : s.wf = true) (hz : (commandEffect i s).layerAt l = some (c, z)) : ∃ y, s.layerAt l = some (c, y) :=
  State.exists_layerAt hs (commandEffect_cfg i s ▸ (State.layerAt_eq_some.1 hz).1)

/-! ### What each write does to a layer -/

/-- An update of the layer `sel` names, seen from layer `l`: it is the update of `l` under `l`'s own parameters, or leaves `l` alone. -/
theorem State.layerAt_updLayer_cases {sel : BitVec 4} {c' : LayerCfg} {y' : Layer} (g : LayerCfg → Layer → Layer)
    (h : s.layerAt l = some (c, y)) (hsel : s.layerAt sel.toNat = some (c', y')) :
    (sel = BitVec.ofNat 4 l ∧ (s.updLayer sel.toNat (g c')).layerAt l = some (c, g c y)) ∨
      (s.updLayer sel.toNat (g c')).layerAt l = some (c, y) := by
  by_cases hl : sel.toNat = l
  · subst hl
    have hcc : c = c' := congrArg Prod.fst (Option.some.inj (h.symm.trans hsel))
    subst hcc
    exact .inl ⟨by simp, State.layerAt_updLayer_same h⟩
  · exact .inr ((State.layerAt_updLayer_other (Ne.symm hl)).trans h)

/-- All that `TWR` can do: nothing when the layer is unmapped, else a tracked write of the layer it names (R120, R128). -/
theorem State.writeTile_cases (s : State) (sel : BitVec 4) (off : BitVec 16) (v : Byte) :
    s.writeTile sel off v = s ∨ ∃ c y, s.layerAt sel.toNat = some (c, y) ∧
      s.writeTile sel off v = s.updLayer sel.toNat (fun y => y.writeTm (tileIndex c off) v) := by
  unfold State.writeTile
  split
  · exact .inl rfl
  · rename_i c y h
    exact .inr ⟨c, y, h, rfl⟩

/-- All that `AWR` can do (R121, R128). -/
theorem State.writeAttr_cases (s : State) (sel : BitVec 4) (off : BitVec 16) (v : Byte) :
    s.writeAttr sel off v = s ∨ ∃ c y, s.layerAt sel.toNat = some (c, y) ∧
      s.writeAttr sel off v = s.updLayer sel.toNat (fun y => y.writeAm (tileIndex c off) v) := by
  unfold State.writeAttr
  split
  · exact .inl rfl
  · rename_i c y h
    exact .inr ⟨c, y, h, rfl⟩

theorem perLayer_eq_some {cfg : Cfg} {sel : BitVec 4} {f : Nat → Reg} {r : Reg} :
    perLayer cfg sel f = some r ↔ sel.toNat < cfg.nLayers ∧ f sel.toNat = r := by
  simp [perLayer]

/-- The registers `RWR` can select: a global one, or one of the layer it names when that layer exists (R143). -/
theorem selectReg_cases {cfg : Cfg} {sel : BitVec 4} {off : BitVec 16} {r : Reg} (h : selectReg cfg sel off = some r) :
    r = .ctrl ∨ r = .status ∨ sel.toNat < cfg.nLayers ∧
      (r = .scxl sel.toNat ∨ r = .scxh sel.toNat ∨ r = .scyl sel.toNat ∨ r = .scyh sel.toNat) := by
  unfold selectReg at h
  split at h <;> simp only [perLayer_eq_some, Option.some.injEq, reduceCtorEq] at h <;> simp [h]

/-- All that `RWR` can do: nothing, a write of `CTRL`, or new scroll values of the layer it names (R141, R143). -/
theorem State.writeRegister_cases (hs : s.wf = true) (sel : BitVec 4) (off : BitVec 16) (v : Byte) :
    s.writeRegister sel off v = s ∨ s.writeRegister sel off v = s.writeFlip (v.getLsbD 0) ∨
      ∃ sx sy : BitVec 16 → BitVec 16, (∃ c y, s.layerAt sel.toNat = some (c, y)) ∧
        s.writeRegister sel off v = s.updLayer sel.toNat (fun y => { y with scx := sx y.scx, scy := sy y.scy }) := by
  unfold State.writeRegister
  split
  · rename_i r hr
    obtain rfl | rfl | ⟨hlt, hr⟩ := selectReg_cases hr
    · exact .inr (.inl rfl)
    · exact .inl rfl
    · have hy := State.layerAt_of_lt hs hlt
      obtain rfl | rfl | rfl | rfl := hr
      · exact .inr (.inr ⟨fun r => setLowByte r v, id, hy, rfl⟩)
      · exact .inr (.inr ⟨fun r => setHighByte r v, id, hy, rfl⟩)
      · exact .inr (.inr ⟨id, fun r => setLowByte r v, hy, rfl⟩)
      · exact .inr (.inr ⟨id, fun r => setHighByte r v, hy, rfl⟩)
  · exact .inl rfl

/-! ### What a command does to a layer -/

/-- All that command `i` can make of layer `l`, of parameters `c` and state `y`, in a machine `s`. -/
inductive LayerChange (s : State) (i : Instr) (l : Nat) (c : LayerCfg) (y : Layer) : Layer → Prop
  | kept (hi : i ≠ .comp) : LayerChange s i l c y y
  | tile (off : BitVec 16) (v : Byte) (hi : i = .twr (BitVec.ofNat 4 l) off v) :
      LayerChange s i l c y (y.writeTm (tileIndex c off) v)
  | attr (off : BitVec 16) (v : Byte) (hi : i = .awr (BitVec.ofNat 4 l) off v) :
      LayerChange s i l c y (y.writeAm (tileIndex c off) v)
  | scroll (off : BitVec 16) (v : Byte) (x x' : BitVec 16) (hi : i = .rwr (BitVec.ofNat 4 l) off v) :
      LayerChange s i l c y { y with scx := x, scy := x' }
  | frame {z : Layer} (hi : i = .comp) (hd : z.dirty = []) (hr : RedrawnUpTo s.flip c (s.invalidated c y) z c.nt) :
      LayerChange s i l c y z

/-- What every command does to every layer (R25, R61). -/
theorem commandEffect_layer (hs : s.wf = true) (i : Instr) (h : s.layerAt l = some (c, y)) :
    ∃ z, (commandEffect i s).layerAt l = some (c, z) ∧ LayerChange s i l c y z := by
  cases i with
  | twr sel off v =>
    obtain he | ⟨c', y', hsel, he⟩ := State.writeTile_cases s sel off v <;> simp only [commandEffect, he]
    · exact ⟨y, h, .kept (by simp)⟩
    · obtain ⟨rfl, hz⟩ | hz := State.layerAt_updLayer_cases (fun c y => y.writeTm (tileIndex c off) v) h hsel
      · exact ⟨_, hz, .tile off v rfl⟩
      · exact ⟨y, hz, .kept (by simp)⟩
  | awr sel off v =>
    obtain he | ⟨c', y', hsel, he⟩ := State.writeAttr_cases s sel off v <;> simp only [commandEffect, he]
    · exact ⟨y, h, .kept (by simp)⟩
    · obtain ⟨rfl, hz⟩ | hz := State.layerAt_updLayer_cases (fun c y => y.writeAm (tileIndex c off) v) h hsel
      · exact ⟨_, hz, .attr off v rfl⟩
      · exact ⟨y, hz, .kept (by simp)⟩
  | rwr sel off v =>
    obtain he | he | ⟨sx, sy, ⟨c', y', hsel⟩, he⟩ := State.writeRegister_cases hs sel off v <;> simp only [commandEffect, he]
    · exact ⟨y, h, .kept (by simp)⟩
    · exact ⟨y, h, .kept (by simp)⟩
    · obtain ⟨rfl, hz⟩ | hz := State.layerAt_updLayer_cases (fun _ y => { y with scx := sx y.scx, scy := sy y.scy }) h hsel
      · exact ⟨_, hz, .scroll off v _ _ rfl⟩
      · exact ⟨y, hz, .kept (by simp)⟩
  | comp =>
    obtain ⟨z, hz, hd, hr⟩ := State.composite_layer hs h
    exact ⟨z, hz, .frame rfl hd hr⟩
  | swr | fref | pchg => exact ⟨y, h, .kept (by simp)⟩
  | nop | trd | ard | srd | rrd | pxrd | drd | rsvdE | rsvdF => exact ⟨y, h, .kept (by simp)⟩

/-! ### What a command does to the other fields -/

/-- All that command `i` can make of a machine `s`, seen from outside the layers. -/
inductive GlobalChange (i : Instr) (s : State) : State → Prop
  | layers (ys : List Layer) (hi : i ≠ .comp) : GlobalChange i s { s with layers := ys }
  | sprite (off : BitVec 16) (v : Byte) (hi : i = .swr off v) : GlobalChange i s (s.writeSprite off v)
  | flip (sel : BitVec 4) (off : BitVec 16) (v : Byte) (b : Bool) (hi : i = .rwr sel off v) : GlobalChange i s (s.writeFlip b)
  | refresh (hi : i = .fref) : GlobalChange i s s.requestRefresh
  | palette (hi : i = .pchg) : GlobalChange i s s.notePalette
  | frame (hi : i = .comp) : GlobalChange i s s.composite

theorem GlobalChange.none (hi : i ≠ .comp) : GlobalChange i s s := .layers s.layers hi

theorem commandEffect_global (hs : s.wf = true) (i : Instr) : GlobalChange i s (commandEffect i s) := by
  cases i with
  | twr sel off v =>
    obtain he | ⟨c, y, -, he⟩ := State.writeTile_cases s sel off v <;> simp only [commandEffect, he]
    · exact .none (by simp)
    · exact .layers _ (by simp)
  | awr sel off v =>
    obtain he | ⟨c, y, -, he⟩ := State.writeAttr_cases s sel off v <;> simp only [commandEffect, he]
    · exact .none (by simp)
    · exact .layers _ (by simp)
  | rwr sel off v =>
    obtain he | he | ⟨sx, sy, -, he⟩ := State.writeRegister_cases hs sel off v <;> simp only [commandEffect, he]
    · exact .none (by simp)
    · exact .flip sel off v _ rfl
    · exact .layers _ (by simp)
  | swr off v => exact .sprite off v rfl
  | fref => exact .refresh rfl
  | pchg => exact .palette rfl
  | comp => exact .frame rfl
  | nop | trd | ard | srd | rrd | pxrd | drd | rsvdE | rsvdF => exact .none (by simp)

namespace GlobalChange

variable {t : State} (h : GlobalChange i s t)

include h

theorem port_eq : t.port = s.port := by cases h <;> rfl

theorem powerUps_eq : t.powerUps = s.powerUps := by cases h <;> rfl

theorem spr_eq (hi : ∀ off v, i ≠ .swr off v) : t.spr = s.spr := by
  cases h with
  | sprite off v he => exact absurd he (hi off v)
  | layers | flip | refresh | palette | frame => rfl

theorem flip_eq (hi : ∀ sel off v, i ≠ .rwr sel off v) : t.flip = s.flip := by
  cases h with
  | flip sel off v b he => exact absurd he (hi sel off v)
  | layers | sprite | refresh | palette | frame => rfl

theorem buffers_eq (hi : i ≠ .comp) : t.fb = s.fb ∧ t.pri = s.pri := by
  cases h with
  | frame he => exact absurd he hi
  | layers | sprite | flip | refresh | palette => exact ⟨rfl, rfl⟩

theorem fullref_mono (hi : i ≠ .comp) (hf : s.fullref = true) : t.fullref = true := by
  cases h with
  | frame he => exact absurd he hi
  | flip => simp [hf]
  | refresh => rfl
  | layers | sprite | palette => exact hf

theorem palchg_mono (hi : i ≠ .comp) (hp : s.palchg = true) : t.palchg = true := by
  cases h with
  | frame he => exact absurd he hi
  | palette => rfl
  | layers | sprite | flip | refresh => exact hp

/-- A command that changes `FLIP` leaves `FULLREF` set (R39, R141). -/
theorem flip_eq_or_fullref (hi : i ≠ .comp) : t.fullref = true ∨ (t.flip = s.flip ∧ t.fullref = s.fullref) := by
  cases h with
  | frame he => exact absurd he hi
  | refresh => exact .inl rfl
  | layers | sprite | palette => exact .inr ⟨rfl, rfl⟩
  | flip sel off v b =>
    by_cases hb : s.flip = b
    · exact .inr ⟨hb.symm, by simp [hb]⟩
    · exact .inl (by simp [hb])

end GlobalChange

/-! ### One layer: which store, which bit -/

namespace LayerChange

variable (h : LayerChange s i l c y z)

include h

theorem tm_eq (hi : ∀ off v, i ≠ .twr (BitVec.ofNat 4 l) off v) : z.tm = y.tm := by
  cases h with
  | tile off v he => exact absurd he (hi off v)
  | attr off v => exact Layer.writeAm_tm y _ v
  | frame _ _ hr => exact hr.tm.trans State.invalidated_tm
  | kept | scroll => rfl

theorem am_eq (hi : ∀ off v, i ≠ .awr (BitVec.ofNat 4 l) off v) : z.am = y.am := by
  cases h with
  | attr off v he => exact absurd he (hi off v)
  | tile off v => exact Layer.writeTm_am y _ v
  | frame _ _ hr => exact hr.am.trans State.invalidated_am
  | kept | scroll => rfl

theorem scroll_eq (hi : ∀ off v, i ≠ .rwr (BitVec.ofNat 4 l) off v) : z.scx = y.scx ∧ z.scy = y.scy := by
  cases h with
  | scroll off v x x' he => exact absurd he (hi off v)
  | tile off v => exact ⟨Layer.writeTm_scx y _ v, Layer.writeTm_scy y _ v⟩
  | attr off v => exact ⟨Layer.writeAm_scx y _ v, Layer.writeAm_scy y _ v⟩
  | frame _ _ hr => exact ⟨hr.scx.trans State.invalidated_scx, hr.scy.trans State.invalidated_scy⟩
  | kept => exact ⟨rfl, rfl⟩

theorem bmp_eq (hi : i ≠ .comp) : z.bmp = y.bmp := by
  cases h with
  | frame he => exact absurd he hi
  | tile off v => exact Layer.writeTm_bmp y _ v
  | attr off v => exact Layer.writeAm_bmp y _ v
  | kept | scroll => rfl

/-- Apart from `COMP` no command clears a dirty bit (R24). -/
theorem dirty_mono (hi : i ≠ .comp) (hk : DirtySet.has y.dirty k = true) : DirtySet.has z.dirty k = true := by
  cases h with
  | frame he => exact absurd he hi
  | tile off v => exact (Layer.has_writeTm y _ k v).2 (.inl hk)
  | attr off v => exact (Layer.has_writeAm y _ k v).2 (.inl hk)
  | kept | scroll => exact hk

/-- A dirty bit is newly set by a changing write of its tile only (R24). -/
theorem dirty_cause (hk : DirtySet.has z.dirty k = true) : DirtySet.has y.dirty k = true ∨ ∃ off v, tileIndex c off = k ∧
    ((i = .twr (BitVec.ofNat 4 l) off v ∧ Memory.read y.tm k ≠ v) ∨
     (i = .awr (BitVec.ofNat 4 l) off v ∧ Memory.read y.am k ≠ v)) := by
  cases h with
  | kept | scroll => exact .inl hk
  | frame _ hd => simp [hd] at hk
  | tile off v he =>
    obtain hk | ⟨rfl, hne⟩ := (Layer.has_writeTm y _ k v).1 hk
    · exact .inl hk
    · exact .inr ⟨off, v, rfl, .inl ⟨he, hne⟩⟩
  | attr off v he =>
    obtain hk | ⟨rfl, hne⟩ := (Layer.has_writeAm y _ k v).1 hk
    · exact .inl hk
    · exact .inr ⟨off, v, rfl, .inr ⟨he, hne⟩⟩

end LayerChange

/-! ### The obligations -/

/-- Settles O23: each part is one field of what a command makes of the machine and of the layer. -/
theorem storesChangeOnlyByTheirCommands : Obligations.StoresChangeOnlyByTheirCommands := by
  intro i s hs
  have hg := commandEffect_global hs i
  refine ⟨_, exec_eq i s, commandEffect_cfg i s, hg.port_eq, hg.powerUps_eq, commandEffect_layers_length hs i, hg.spr_eq, hg.flip_eq,
    hg.buffers_eq, fun l c y hy => ?_⟩
  obtain ⟨z, hz, hl⟩ := commandEffect_layer hs i hy
  exact ⟨z, hz, hl.tm_eq, hl.am_eq, hl.scroll_eq, hl.bmp_eq⟩

/-- Settles O24: the requests are fields of the machine's change, the dirty bits of the layer's. -/
theorem dirtyBitsChangeOnlyAsTracked : Obligations.DirtyBitsChangeOnlyAsTracked := by
  intro i s hs hi
  have hg := commandEffect_global hs i
  refine ⟨_, exec_eq i s, hg.fullref_mono hi, hg.palchg_mono hi, fun l c y hy => ?_⟩
  obtain ⟨z, hz, hl⟩ := commandEffect_layer hs i hy
  exact ⟨z, hz, fun _ => hl.dirty_mono hi, fun _ => hl.dirty_cause⟩

end Sys2Proof.Machine
end

section
/-!
PROOFS. The cache invariant (`10_state.md` R39): a launch state has every tile dirty, a command other than `COMP` marks what it makes
stale, and `COMP` shows every tile. Hence every step keeps it.
-/

namespace Sys2Proof.Machine

variable {s : State} {c : LayerCfg} {y z : Layer} {i : Instr} {l k : Nat} {flip : Bool}

/-! ### Launch states (R38, R240, R241) -/

section Launch

variable (b : BuiltCfg) (content : Config.Store → Nat → Byte) (port : List PortInput) (n : Nat)

/-- Each layer of the configuration is found right after reset, with its stores as the content says. -/
theorem State.layerAt_afterReset (hc : b.cfg.layers[l]? = some c) :
    (State.afterReset b content port n).layerAt l = some (c, Layer.afterReset content l c) := by
  refine State.layerAt_eq_some.2 ⟨hc, ?_⟩
  rw [State.afterReset_layers, layersAfterReset_getElem?, hc, Nat.zero_add, Option.map_some]

theorem Layer.has_afterReset (content : Config.Store → Nat → Byte) (l k : Nat) (c : LayerCfg) :
    DirtySet.has (Layer.afterReset content l c).dirty k = true ↔ k < c.nt :=
  DirtySet.has_full c.nt k

/-- With every tile dirty the cache promises nothing (R241). -/
theorem State.coherent_afterReset : (State.afterReset b content port n).Coherent := by
  intro l c y hy j hj
  have hc : b.cfg.layers[l]? = some c := (State.layerAt_eq_some.1 hy).1
  have hyy := (State.layerAt_afterReset b content port n hc).symm.trans hy
  obtain rfl : Layer.afterReset content l c = y := congrArg Prod.snd (Option.some.inj hyy)
  exact .inl ((Layer.has_afterReset content l j c).2 hj)

end Launch

/-! ### What keeps a tile shown -/

/-- Whether a tile is shown depends on its own two bytes and on the bitmap. -/
theorem tileShown_congr (ht : Memory.read z.tm k = Memory.read y.tm k) (ha : Memory.read z.am k = Memory.read y.am k)
    (hb : z.bmp = y.bmp) : tileShown c flip z k ↔ tileShown c flip y k := by
  simp only [tileShown, rectKey, renderPen, ht, ha, hb]

/-- `TWR`'s write keeps the byte of every tile it leaves clean (R120). -/
theorem Layer.read_writeTm_of_clean {j : Nat} {v : Byte} (h : Memory.wf c.nt y.tm = true)
    (hk : DirtySet.has (y.writeTm j v).dirty k ≠ true) : Memory.read (y.writeTm j v).tm k = Memory.read y.tm k := by
  rw [Layer.read_writeTm h]
  split_ifs with hkj
  · by_contra hne
    exact hk ((Layer.has_writeTm y j k v).2 (.inr ⟨hkj, hkj ▸ Ne.symm hne⟩))
  · rfl

/-- `AWR`'s write likewise (R121). -/
theorem Layer.read_writeAm_of_clean {j : Nat} {v : Byte} (h : Memory.wf c.nt y.am = true)
    (hk : DirtySet.has (y.writeAm j v).dirty k ≠ true) : Memory.read (y.writeAm j v).am k = Memory.read y.am k := by
  rw [Layer.read_writeAm h]
  split_ifs with hkj
  · by_contra hne
    exact hk ((Layer.has_writeAm y j k v).2 (.inr ⟨hkj, hkj ▸ Ne.symm hne⟩))
  · rfl

/-- Without `COMP` a clean tile stays shown: no command writes its bytes but one that marks it, and none writes the bitmap. -/
theorem LayerChange.tileShown_of_clean (h : LayerChange s i l c y z) (hi : i ≠ .comp) (hw : Layer.wf c y = true)
    (hk : DirtySet.has z.dirty k ≠ true) (hy : tileShown c flip y k) : tileShown c flip z k := by
  obtain ⟨htm, ham, -⟩ := Layer.wf_iff.1 hw
  cases h with
  | kept | scroll => exact hy
  | tile off v =>
    exact (tileShown_congr (Layer.read_writeTm_of_clean htm hk) (by rw [Layer.writeTm_am]) (Layer.writeTm_bmp y _ v)).2 hy
  | attr off v =>
    exact (tileShown_congr (by rw [Layer.writeAm_tm]) (Layer.read_writeAm_of_clean ham hk) (Layer.writeAm_bmp y _ v)).2 hy
  | frame he => exact absurd he hi

/-! ### `COMP` shows every tile (R39, R172) -/

/-- In a coherent layer a tile that phase 2 does not redraw is shown already. -/
theorem tileShown_of_not_toRedraw (hc : layerCoherent s.fullref s.flip c y) (hk : k < c.nt) (hr : ¬ s.toRedraw y k) :
    tileShown c s.flip y k := by
  obtain hd | hf | hshown := hc k hk
  · exact absurd (.inl hd) hr
  · exact absurd (.inr (.inl hf)) hr
  · exact hshown

/-- A redrawn tile is shown because it was drawn; any other was shown before and no redrawn rectangle touches it. -/
theorem RedrawnUpTo.shows_every_tile (h : RedrawnUpTo s.flip c (s.invalidated c y) z c.nt)
    (hc : layerCoherent s.fullref s.flip c y) (hk : k < c.nt) : tileShown c s.flip z k := by
  intro dx hx dy hy
  rw [rectKey_congr h.am, renderPen_congr h.tm h.am]
  by_cases hr : s.toRedraw y k
  · exact h.drawn k hk ((State.has_invalidated hk).2 hr) dx hx dy hy
  · have huntouched : ∀ j < c.nt, DirtySet.has (s.invalidated c y).dirty j = true →
        ¬ inRect c s.flip (s.invalidated c y) j (rectKey c s.flip (s.invalidated c y) k dx dy) := by
      rintro j hj hd ⟨dx', hx', dy', hy', hkey⟩
      obtain ⟨rfl, -, -⟩ := rectKey_inj hk hj hx hy hx' hy' hkey
      exact hr ((State.has_invalidated hk).1 hd)
    rw [h.kept _ huntouched, State.invalidated_bmp, rectKey_congr State.invalidated_am,
      renderPen_congr State.invalidated_tm State.invalidated_am]
    exact tileShown_of_not_toRedraw hc hk hr dx hx dy hy

/-- After `COMP` of a coherent machine every tile of every layer is shown. -/
theorem State.tileShown_composite (hs : s.wf = true) (hc : s.Coherent) (hz : s.composite.layerAt l = some (c, z)) (hk : k < c.nt) :
    tileShown c s.flip z k := by
  obtain ⟨y, hy⟩ := layerAt_before (i := .comp) hs hz
  obtain ⟨z', hz', -, hr⟩ := State.composite_layer hs hy
  obtain rfl : z' = z := congrArg Prod.snd (Option.some.inj (hz'.symm.trans hz))
  exact hr.shows_every_tile (hc l c y hy) hk

/-! ### Every command keeps the invariant -/

theorem commandEffect_coherent (hs : s.wf = true) (hc : s.Coherent) (i : Instr) : (commandEffect i s).Coherent := by
  intro l c z hz k hk
  by_cases hi : i = .comp
  · subst hi
    exact .inr (.inr (State.tileShown_composite (s := s) hs hc hz hk))
  obtain ⟨y, hy⟩ := layerAt_before hs hz
  obtain ⟨z', hz', hl⟩ := commandEffect_layer hs i hy
  obtain rfl : z' = z := congrArg Prod.snd (Option.some.inj (hz'.symm.trans hz))
  obtain hfull | ⟨hflip, hfull⟩ := (commandEffect_global hs i).flip_eq_or_fullref hi
  · exact .inr (.inl hfull)
  rw [hflip, hfull]
  obtain hdirty | hrequest | hshown := hc l c y hy k hk
  · exact .inl (hl.dirty_mono hi hdirty)
  · exact .inr (.inl hrequest)
  · by_cases hd : DirtySet.has z'.dirty k = true
    · exact .inl hd
    · exact .inr (.inr (hl.tileShown_of_clean hi (State.layer_wf hs hy) hd hshown))

/-! ### The obligations -/

/-- Settles O34: idle keeps the state, `rst` gives a launch state, a command keeps the invariant. -/
theorem stepKeepsCacheInvariant : Obligations.StepKeepsCacheInvariant := by
  intro s hs hc
  match hp : s.port with
  | [] => exact ⟨s, step_of_idle hp, hc⟩
  | .rst :: rest => exact ⟨_, step_of_rst hp, State.coherent_afterReset _ _ _ _⟩
  | .command w :: rest =>
    refine ⟨_, (step_of_command hp).trans (exec_eq _ _), ?_⟩
    exact commandEffect_coherent (s := { s with port := rest }) hs hc (decode w)

/-- Settles O31. -/
theorem launchStatesAreCoherent : Obligations.LaunchStatesAreCoherent := by
  rintro s ⟨content, port, n, h⟩
  rw [h]
  exact ⟨State.wf_afterReset _ _ _ _, State.coherent_afterReset _ _ _ _⟩

/-- Settles O39. -/
theorem compLeavesTheWholePicture : Obligations.CompLeavesTheWholePicture := by
  intro s hs hc
  exact ⟨_, exec_eq .comp s, fun l c z hz k hk => State.tileShown_composite (s := s) hs hc hz hk⟩

/-- Settles O28: the reset event gives a launch state, and the fields of a launch state are known. -/
theorem resetEventTakesTheResetState : Obligations.ResetEventTakesTheResetState := by
  intro s rest hp
  refine ⟨_, step_of_rst hp, State.isLaunch_afterReset _ _ _ _, State.wf_takeReset, rfl, rfl, rfl, rfl, rfl, rfl, fun l c hc => ?_⟩
  exact ⟨_, State.layerAt_afterReset _ _ _ _ hc, rfl, rfl, fun k => Layer.has_afterReset _ l k c⟩

/-- Settles O30: every store of a launch state is tabulated from the content. -/
theorem launchStateValues : Obligations.LaunchStateValues := by
  intro b content port n
  refine ⟨rfl, rfl, rfl, rfl, layersAfterReset_length content 0 b.cfg.layers, fun k hk => Memory.read_tabulate _ hk,
    fun k hk => ⟨Memory.read_tabulate _ hk, Memory.read_tabulate _ hk⟩, fun l c hc => ?_⟩
  exact ⟨_, State.layerAt_afterReset b content port n hc, rfl, rfl, fun k => Layer.has_afterReset content l k c,
    fun k hk => ⟨Memory.read_tabulate _ hk, Memory.read_tabulate _ hk⟩, fun k hk => Memory.read_tabulate _ hk⟩

end Sys2Proof.Machine
end

section
/-!
PROOFS. What a frame is made of (`42_tile_compositor.md` R171, R172; `43_sprite_compositor.md` R200): the priority byte of a pixel bit
by bit, and the layer bitmaps of a coherent machine as a function of its memories.
-/

namespace Sys2Proof.Machine

variable {s t : State} {cfg : Cfg} {c : LayerCfg} {y z : Layer} {l px py : Nat} {flip : Bool}

/-! ### The priority byte (R36, R171) -/

theorem opaquePen_iff (transparent : Option Byte) (pen : Byte) : opaquePen transparent pen = true ↔ transparent ≠ some pen := by
  cases transparent with
  | none => simp [opaquePen]
  | some p => simp [opaquePen, eq_comm (a := p)]

/-- A bit of the priority byte is a bit of the byte below the stack or of the mask of an opaque layer of the stack. -/
theorem stackPri_getLsbD (b : Nat) (cs : List LayerCfg) (ys : List Layer) (pri : Byte) :
    (stackPri cfg flip px py cs ys pri).getLsbD b = true ↔ pri.getLsbD b = true ∨ ∃ (l : Nat) (c : LayerCfg) (y : Layer),
      cs[l]? = some c ∧ ys[l]? = some y ∧ c.transp ≠ some (layerPen cfg flip c y px py) ∧ c.lpri.getLsbD b = true := by
  induction cs generalizing ys pri with
  | nil => simp [stackPri]
  | cons c cs ih =>
    cases ys with
    | nil => simp [stackPri]
    | cons y ys =>
      rw [stackPri, ih, ← Nat.or_exists_add_one (p := fun l => ∃ c' y', (c :: cs)[l]? = some c' ∧ (y :: ys)[l]? = some y' ∧ _)]
      simp only [opaquePen_iff, List.getElem?_cons_zero, List.getElem?_cons_succ, Option.some.injEq, exists_and_left, exists_eq_left',
        ← or_assoc]
      refine or_congr_left ?_
      split_ifs with ho <;> simp [ho]

/-- Settles O41: the sprite pass leaves `PRI`, and phase 4 stacks the layers over 0. -/
theorem priorityIsOrOfOpaqueLayers : Obligations.PriorityIsOrOfOpaqueLayers := by
  intro s px py b _ hx hy _
  refine ⟨_, exec_eq .comp s, ?_⟩
  have hpri : Memory.read s.composite.pri (py * s.cfg.screenW + px) =
      stackPri s.cfg s.flip px py s.cfg.layers s.composite.layers 0 := State.compositeTiles_pri hx hy
  refine (hpri ▸ stackPri_getLsbD b _ _ 0).trans ?_
  have hzero : (0 : Byte).getLsbD b = false := BitVec.getLsbD_zero
  simp only [hzero, Bool.false_eq_true, false_or]
  constructor
  · rintro ⟨l, c, y, hc, hy, ho, hb⟩
    exact ⟨l, c, _, hc, ⟨c, y, State.layerAt_eq_some.2 ⟨hc, hy⟩, rfl, ho⟩, hb⟩
  · rintro ⟨l, c, pen, hc, ⟨c', y, hl, rfl, ho⟩, hb⟩
    obtain ⟨hc', hy⟩ := State.layerAt_eq_some.1 hl
    obtain rfl : c' = c := Option.some.inj (hc'.symm.trans hc)
    exact ⟨l, c', y, hc, hy, ho, hb⟩

/-! ### The layer bitmap (R172) -/

/-- Two bitmaps that show every tile of equal `TM` and `AM` are equal: the rectangles cover the bitmap. -/
theorem bmp_eq_of_shown (hy : Memory.wf c.bmpSize y.bmp = true) (hz : Memory.wf c.bmpSize z.bmp = true) (htm : z.tm = y.tm)
    (ham : z.am = y.am) (hys : ∀ k < c.nt, tileShown c flip y k) (hzs : ∀ k < c.nt, tileShown c flip z k) : y.bmp = z.bmp := by
  refine Memory.ext_read hy hz (fun key hkey => ?_)
  have hbw : 0 < c.bw := Nat.pos_of_mul_pos_left (Nat.zero_lt_of_lt hkey)
  obtain ⟨k, hk, dx, hdx, dy, hdy, hrect⟩ :=
    exists_rectKey (flip := flip) y (Nat.mod_lt key hbw) (Nat.div_lt_of_lt_mul (hkey.trans_eq (Nat.mul_comm c.bh c.bw)))
  rw [Nat.mul_comm, Nat.div_add_mod] at hrect
  calc Memory.read y.bmp key = renderPen c flip y k dx dy := hrect ▸ hys k hk dx hdx dy hdy
    _ = renderPen c flip z k dx dy := (renderPen_congr htm ham dx dy).symm
    _ = Memory.read z.bmp (rectKey c flip z k dx dy) := (hzs k hk dx hdx dy hdy).symm
    _ = Memory.read z.bmp key := by rw [rectKey_congr ham, hrect]

/-! ### Two machines with the same memories (R172) -/

/-- A layer of one of two machines with the same memories, seen in the other. -/
theorem State.SameMemory.layerAt_of (h : s.SameMemory t) (ht : t.wf = true) (hy : s.layerAt l = some (c, y)) :
    ∃ z, t.layerAt l = some (c, z) ∧ z.tm = y.tm ∧ z.am = y.am ∧ z.scx = y.scx ∧ z.scy = y.scy := by
  obtain ⟨hcfg, -, -, hlayers⟩ := h
  obtain ⟨hc, hyl⟩ := State.layerAt_eq_some.1 hy
  obtain ⟨z, hz⟩ := State.exists_layerAt ht (hcfg ▸ hc)
  obtain ⟨htm, ham, hscx, hscy⟩ := hlayers l y z hyl (State.layerAt_eq_some.1 hz).2
  exact ⟨z, hz, htm.symm, ham.symm, hscx.symm, hscy.symm⟩

section SameFrame

variable (hs : s.wf = true) (ht : t.wf = true) (hsc : s.Coherent) (htc : t.Coherent) (hm : s.SameMemory t) (hf : s.flip = t.flip)

include hs ht hsc htc hm hf

/-- `COMP` makes of a layer one and the same record in both machines: nothing dirty, the picture of the whole tile map. -/
theorem composite_layerAt_eq (hy : s.layerAt l = some (c, y)) :
    ∃ z, s.composite.layerAt l = some (c, z) ∧ t.composite.layerAt l = some (c, z) := by
  obtain ⟨y', hy', htm, ham, hscx, hscy⟩ := hm.layerAt_of ht hy
  obtain ⟨z, hz, hd, hr⟩ := State.composite_layer hs hy
  obtain ⟨z', hz', hd', hr'⟩ := State.composite_layer ht hy'
  have htm' : z'.tm = z.tm := by simp only [hr.tm, hr'.tm, State.invalidated_tm, htm]
  have ham' : z'.am = z.am := by simp only [hr.am, hr'.am, State.invalidated_am, ham]
  have hscx' : z'.scx = z.scx := by simp only [hr.scx, hr'.scx, State.invalidated_scx, hscx]
  have hscy' : z'.scy = z.scy := by simp only [hr.scy, hr'.scy, State.invalidated_scy, hscy]
  obtain ⟨-, -, -, hwf⟩ := Layer.wf_iff.1 hr.wf
  obtain ⟨-, -, -, hwf'⟩ := Layer.wf_iff.1 hr'.wf
  have hbmp : z.bmp = z'.bmp := bmp_eq_of_shown (flip := s.flip) hwf hwf' htm' ham'
    (fun k hk => State.tileShown_composite hs hsc hz hk) (fun k hk => hf ▸ State.tileShown_composite ht htc hz' hk)
  have hzz : z' = z := by
    cases z
    cases z'
    rw [Layer.mk.injEq]
    exact ⟨htm', ham', hd'.trans hd.symm, hscx', hscy', hbmp.symm⟩
  exact ⟨z, hz, hzz ▸ hz'⟩

theorem composite_layers_eq_of_sameMemory : s.composite.layers = t.composite.layers := by
  refine List.ext_getElem? (fun l => ?_)
  by_cases hl : l < s.cfg.nLayers
  · obtain ⟨c, y, hy⟩ := State.layerAt_of_lt hs hl
    obtain ⟨z, hz, hz'⟩ := composite_layerAt_eq hs ht hsc htc hm hf hy
    exact (State.layerAt_eq_some.1 hz).2.trans (State.layerAt_eq_some.1 hz').2.symm
  · have hlen := (layersWf_iff.1 (State.wf_iff.1 hs).2.1).1
    have hlen' : s.layers.length = t.layers.length := hm.2.2.1
    simp only [Cfg.nLayers] at hl
    rw [List.getElem?_eq_none (by rw [State.composite_layers_length]; omega),
      List.getElem?_eq_none (by rw [State.composite_layers_length]; omega)]

end SameFrame

/-- The screen after the tile phases is made of the configuration, the flip and the layers alone (R166, R168). -/
theorem State.compositeTiles_screen (s : State) :
    (⟨s.compositeTiles.fb, s.compositeTiles.pri⟩ : Screen) = copyLayers s.cfg s.flip s.cfg.layers s.composite.layers
      ⟨Memory.tabulate s.cfg.screenSize (fun _ => s.cfg.bgPen), Memory.tabulate s.cfg.screenSize (fun _ => 0)⟩ := rfl

/-- Settles O43: equal layers after phase 2 make equal tile pictures, and equal sprite RAM an equal sprite pass over them. -/
theorem frameIsAFunctionOfMemory : Obligations.FrameIsAFunctionOfMemory := by
  intro s t hs ht hsc htc hm hf
  have hlayers := composite_layers_eq_of_sameMemory hs ht hsc htc hm hf
  obtain ⟨hcfg, hspr, -⟩ := hm
  have hscreen : (⟨s.compositeTiles.fb, s.compositeTiles.pri⟩ : Screen) = ⟨t.compositeTiles.fb, t.compositeTiles.pri⟩ := by
    rw [State.compositeTiles_screen, State.compositeTiles_screen, hlayers, hcfg, hf]
  obtain ⟨hfb, hpri⟩ := Screen.mk.inj hscreen
  refine ⟨_, _, exec_eq .comp s, exec_eq .comp t, ?_, hpri, hlayers⟩
  show s.composite.fb = t.composite.fb
  rw [State.composite_fb, State.composite_fb, hcfg, hf, hspr, hfb, hpri]

end Sys2Proof.Machine
end

section
/-!
PROOFS. Bit fields in numbers: the tile byte pair of `10_state.md` R26 behind a redraw (`42_tile_compositor.md` R163 to R165), and the
sprite records of R28 and R29.
-/

namespace Sys2Proof.Machine

/-! ### Fields of a byte -/

/-- A bit of a byte in numbers. -/
theorem getLsbD_eq_decide (v : Byte) (j : Nat) : v.getLsbD j = decide (v.toNat / 2 ^ j % 2 = 1) := by
  rw [BitVec.getLsbD, Nat.testBit_eq_decide_div_mod_eq]

/-- The top bit of a byte in numbers. -/
theorem getLsbD_seven (v : Byte) : v.getLsbD 7 = decide (v.toNat / 128 = 1) := by
  rw [getLsbD_eq_decide]
  have := v.isLt
  exact decide_eq_decide.2 (by omega)

/-- A field of `n` bits from bit `j` of a byte in numbers. -/
theorem extractLsb'_toNat_eq (v : Byte) (j n : Nat) : (v.extractLsb' j n).toNat = v.toNat / 2 ^ j % 2 ^ n := by
  rw [BitVec.extractLsb'_toNat, Nat.shiftRight_eq_div_pow]

theorem extractLsb'_zero_toNat_eq (v : Byte) (n : Nat) : (v.extractLsb' 0 n).toNat = v.toNat % 2 ^ n := by
  rw [extractLsb'_toNat_eq, Nat.pow_zero, Nat.div_one]

/-- Two bytes joined, the second one low (R62). -/
theorem append_toNat_eq (hi lo : Byte) : (hi ++ lo : BitVec 16).toNat = 256 * hi.toNat + lo.toNat := by
  rw [BitVec.toNat_append, ← Nat.shiftLeft_add_eq_or_of_lt lo.isLt, Nat.shiftLeft_eq, Nat.mul_comm]

theorem word16_eq (lo hi : Byte) : word16 lo hi = 256 * hi.toNat + lo.toNat := append_toNat_eq hi lo

/-- Sign extension of two bytes in numbers (R11, R29). -/
theorem sext16_eq (lo hi : Byte) : sext16 lo hi =
    if 32768 ≤ 256 * hi.toNat + lo.toNat then ((256 * hi.toNat + lo.toNat : Nat) : Int) - 65536
    else ((256 * hi.toNat + lo.toNat : Nat) : Int) := by
  rw [sext16, BitVec.toInt_eq_toNat_cond, append_toNat_eq]
  split_ifs <;> omega

/-! ### The byte of `AM` (R26) -/

theorem attrColor_eq (a : Byte) : attrColor a = a.toNat % 16 := extractLsb'_zero_toNat_eq a 4

theorem attrBank_eq (a : Byte) : attrBank a = a.toNat / 16 % 4 := extractLsb'_toNat_eq a 4 2

theorem attrFlipX_eq (a : Byte) : attrFlipX a = decide (a.toNat / 64 % 2 = 1) := getLsbD_eq_decide a 6

theorem attrFlipY_eq (a : Byte) : attrFlipY a = decide (a.toNat / 128 % 2 = 1) := getLsbD_eq_decide a 7

/-- `TileCode` in numbers (R164). -/
theorem tileCode_eq (c : LayerCfg) (t a : Byte) : tileCode c t a = (t.toNat + a.toNat / 16 % 4 * 256) % c.npat := by
  rw [tileCode, attrBank_eq, Nat.shiftLeft_eq]

theorem LayerCfg.npat_pos {c : LayerCfg} (h : c.ok = true) : 0 < c.npat := by
  simp only [LayerCfg.ok, patternsOk, Bool.and_eq_true, decide_eq_true_eq] at h
  exact h.1.2.1

/-- Toggling a bit adds 1 to it. -/
theorem not_decide_odd (q : Nat) : (!decide (q % 2 = 1)) = decide ((q + 1) % 2 = 1) := by
  rw [← decide_not]
  exact decide_eq_decide.2 (by omega)

/-! ### The two forms of a sprite record (R28, R29) -/

theorem spriteRecord_of_four {cfg : Cfg} (h : cfg.stride = .four) (spr : Memory) (n : Nat) :
    spriteRecord cfg spr n = spriteRecord4 spr n := by
  simp only [spriteRecord, h]

theorem spriteRecord_of_sixteen {cfg : Cfg} (h : cfg.stride = .sixteen) (spr : Memory) (n : Nat) :
    spriteRecord cfg spr n = spriteRecord16 spr n := by
  simp only [spriteRecord, h]

/-! ### The obligations -/

/-- Settles O37: the fields of the two bytes in numbers, in each value of the flip. -/
theorem tileRectangleAndPens : Obligations.TileRectangleAndPens := by
  intro c y i dx dy hc _ _ _
  refine ⟨Nat.mod_lt _ (LayerCfg.npat_pos hc), rfl, ?_, rfl, ?_⟩
  · simp only [renderPen, tilePlace, tilePen, Bool.false_eq_true, if_false, attrColor_eq, tileCode_eq, attrFlipX_eq, attrFlipY_eq,
      decide_eq_true_eq, Nat.add_zero]
  · simp only [renderPen, tilePlace, tilePen, if_true, attrColor_eq, tileCode_eq, attrFlipX_eq, attrFlipY_eq, not_decide_odd,
      decide_eq_true_eq]

/-- Settles O51: with `SPR_STRIDE` 4 each field is a byte or a bit field of the last byte. -/
theorem fourByteRecordFields : Obligations.FourByteRecordFields := by
  intro cfg spr n hstride
  rw [spriteRecord_of_four hstride]
  exact ⟨rfl, rfl, rfl, extractLsb'_zero_toNat_eq _ 4, getLsbD_seven _, getLsbD_eq_decide _ 6, getLsbD_eq_decide _ 5, rfl, rfl, rfl⟩

/-- Settles O52: with `SPR_STRIDE` 16 the place and the code are byte pairs, the rest as in O51. -/
theorem sixteenByteRecordFields : Obligations.SixteenByteRecordFields := by
  intro cfg spr n hstride
  rw [spriteRecord_of_sixteen hstride]
  exact ⟨sext16_eq _ _, sext16_eq _ _, word16_eq _ _, extractLsb'_zero_toNat_eq _ 4, getLsbD_seven _, getLsbD_eq_decide _ 6,
    getLsbD_eq_decide _ 5, extractLsb'_toNat_eq _ 2 2, extractLsb'_zero_toNat_eq _ 2, rfl⟩

end Sys2Proof.Machine
end

section
/-!
PROOFS. Memory and registers seen through the commands (`20_memory.md`): which layers are mapped (R67, R128), that a read changes
nothing but the response, that it answers what the last write stored, and that writing the byte it answers changes nothing (R65).
-/

namespace Sys2Proof.Machine

variable {s : State} {c : LayerCfg} {y : Layer} {l : Nat}

/-! ### Accesses to a mapped layer -/

theorem State.readLayer_of_mapped {sel : BitVec 4} (h : s.layerAt sel.toNat = some (c, y)) (off : BitVec 16) (f : Layer → Nat → Byte) :
    s.readLayer sel off f = f y (tileIndex c off) := by
  simp only [State.readLayer, h]

theorem State.writeTile_of_mapped {sel : BitVec 4} (h : s.layerAt sel.toNat = some (c, y)) (off : BitVec 16) (v : Byte) :
    s.writeTile sel off v = s.updLayer sel.toNat (fun y => y.writeTm (tileIndex c off) v) := by
  simp only [State.writeTile, h]

theorem State.writeAttr_of_mapped {sel : BitVec 4} (h : s.layerAt sel.toNat = some (c, y)) (off : BitVec 16) (v : Byte) :
    s.writeAttr sel off v = s.updLayer sel.toNat (fun y => y.writeAm (tileIndex c off) v) := by
  simp only [State.writeAttr, h]

/-! ### Reading what was written -/

theorem State.readLayer_writeTile {sel : BitVec 4} (hs : s.wf = true) (h : s.layerAt sel.toNat = some (c, y)) (off : BitVec 16)
    (v : Byte) : (s.writeTile sel off v).readLayer sel off (fun y k => Memory.read y.tm k) = v := by
  obtain ⟨htm, -⟩ := Layer.wf_iff.1 (State.layer_wf hs h)
  rw [State.writeTile_of_mapped h, State.readLayer_of_mapped (State.layerAt_updLayer_same h), Layer.read_writeTm htm, if_pos rfl]

theorem State.readLayer_writeAttr {sel : BitVec 4} (hs : s.wf = true) (h : s.layerAt sel.toNat = some (c, y)) (off : BitVec 16)
    (v : Byte) : (s.writeAttr sel off v).readLayer sel off (fun y k => Memory.read y.am k) = v := by
  obtain ⟨-, ham, -⟩ := Layer.wf_iff.1 (State.layer_wf hs h)
  rw [State.writeAttr_of_mapped h, State.readLayer_of_mapped (State.layerAt_updLayer_same h), Layer.read_writeAm ham, if_pos rfl]

theorem State.readSprite_writeSprite (hs : s.wf = true) (off : BitVec 16) (v : Byte) : (s.writeSprite off v).readSprite off = v := by
  obtain ⟨-, -, hspr, -⟩ := State.wf_iff.1 hs
  rw [State.readSprite, State.writeSprite_spr, State.writeSprite_cfg, Memory.read_write hspr, if_pos rfl]

/-! ### Writing what was read -/

/-- An update that leaves the layer it names as it was changes nothing. -/
theorem State.updLayer_eq_self {f : Layer → Layer} (h : ∀ y, s.layers[l]? = some y → f y = y) : s.updLayer l f = s := by
  have hl : s.layers.modify l f = s.layers := by
    apply List.ext_getElem?
    intro k
    rw [List.getElem?_modify]
    split_ifs with hk
    · subst hk
      cases hy : s.layers[l]? with
      | none => rfl
      | some y => exact congrArg some (h y hy)
    · exact id_map _
  rw [State.updLayer, hl]

theorem State.writeTile_same {sel : BitVec 4} {off : BitVec 16} {v : Byte} (h : s.layerAt sel.toNat = some (c, y))
    (hv : s.readLayer sel off (fun y k => Memory.read y.tm k) = v) : s.writeTile sel off v = s := by
  rw [State.readLayer_of_mapped h] at hv
  rw [State.writeTile_of_mapped h]
  refine State.updLayer_eq_self (fun z hz => ?_)
  obtain rfl : y = z := Option.some.inj ((State.layerAt_eq_some.1 h).2.symm.trans hz)
  exact Layer.writeTm_same hv

theorem State.writeAttr_same {sel : BitVec 4} {off : BitVec 16} {v : Byte} (h : s.layerAt sel.toNat = some (c, y))
    (hv : s.readLayer sel off (fun y k => Memory.read y.am k) = v) : s.writeAttr sel off v = s := by
  rw [State.readLayer_of_mapped h] at hv
  rw [State.writeAttr_of_mapped h]
  refine State.updLayer_eq_self (fun z hz => ?_)
  obtain rfl : y = z := Option.some.inj ((State.layerAt_eq_some.1 h).2.symm.trans hz)
  exact Layer.writeAm_same hv

theorem State.writeSprite_same {off : BitVec 16} {v : Byte} (hs : s.wf = true) (hv : s.readSprite off = v) : s.writeSprite off v = s := by
  obtain ⟨hcfg, -, hspr, -⟩ := State.wf_iff.1 hs
  rw [State.writeSprite, Memory.write_same hspr (spriteIndex_lt hcfg off) hv]

/-- The two halves of a scroll value make the value (R30, R62). -/
theorem highByte_append_lowByte (r : BitVec 16) : (highByte r ++ lowByte r : BitVec 16) = r :=
  (BitVec.extractLsb'_append_extractLsb'_eq_extractLsb' (h := rfl)).trans (BitVec.extractLsb'_eq_self)

theorem setLowByte_lowByte (r : BitVec 16) : setLowByte r (lowByte r) = r := highByte_append_lowByte r

theorem setHighByte_highByte (r : BitVec 16) : setHighByte r (highByte r) = r := highByte_append_lowByte r

/-- Bit 0 of `CTRL` is `FLIP` (R31). -/
theorem State.ctrlByte_getLsbD_zero (s : State) : s.ctrlByte.getLsbD 0 = s.flip := by
  unfold State.ctrlByte
  cases s.flip <;> rfl

/-- Writing `FLIP` as it is makes no refresh request (R141). -/
theorem State.writeFlip_same (s : State) : s.writeFlip s.flip = s := by
  simp [State.writeFlip]

/-- An update from a byte of the layer is without effect when that byte is the one the layer shows. -/
theorem State.updLayer_of_layerByte {f : Layer → Byte} {v : Byte} (hv : s.layerByte l f = v) (g : Layer → Byte → Layer)
    (hg : ∀ y, g y (f y) = y) : s.updLayer l (fun y => g y v) = s := by
  refine State.updLayer_eq_self (fun y hy => ?_)
  obtain rfl : f y = v := by simpa only [State.layerByte, hy] using hv
  exact hg y

theorem State.writeReg_same {r : Reg} {v : Byte} (hv : s.readReg r = v) : s.writeReg r v = s := by
  cases r with
  | ctrl =>
    subst hv
    exact (congrArg s.writeFlip s.ctrlByte_getLsbD_zero).trans s.writeFlip_same
  | status => rfl
  | scxl l =>
    exact State.updLayer_of_layerByte hv (fun y v => { y with scx := setLowByte y.scx v }) (fun y => by rw [setLowByte_lowByte])
  | scxh l =>
    exact State.updLayer_of_layerByte hv (fun y v => { y with scx := setHighByte y.scx v }) (fun y => by rw [setHighByte_highByte])
  | scyl l =>
    exact State.updLayer_of_layerByte hv (fun y v => { y with scy := setLowByte y.scy v }) (fun y => by rw [setLowByte_lowByte])
  | scyh l =>
    exact State.updLayer_of_layerByte hv (fun y v => { y with scy := setHighByte y.scy v }) (fun y => by rw [setHighByte_highByte])

/-- A mapped register keeps its value, and a write of an unmapped one is dropped anyway (R67, R141). -/
theorem State.writeRegister_same {sel : BitVec 4} {off : BitVec 16} {v : Byte} (hv : s.readRegister sel off = v) :
    s.writeRegister sel off v = s := by
  cases hr : selectReg s.cfg sel off with
  | some r =>
    simp only [State.readRegister, hr] at hv
    simp only [State.writeRegister, hr]
    exact State.writeReg_same hv
  | none => simp only [State.writeRegister, hr]

/-! ### Commands in sequence -/

/-- No response depends on the response before it (R13, R96). -/
theorem commandResponse_respond (i : Instr) (s : State) (r : Option Byte) : commandResponse i (s.respond r) = commandResponse i s := by
  cases i <;> rfl

theorem commandEffect_of_isRead {i : Instr} (hi : isRead i = true) (s : State) : commandEffect i s = s := by
  cases i with
  | trd | ard | srd | rrd | drd | pxrd => rfl
  | nop | twr | awr | swr | rwr | fref | pchg | comp | rsvdE | rsvdF => simp [isRead] at hi

theorem commandResponse_of_isRead {i : Instr} (hi : isRead i = true) (s : State) : ∃ b, commandResponse i s = some b := by
  cases i with
  | trd | ard | srd | rrd | drd | pxrd => exact ⟨_, rfl⟩
  | nop | twr | awr | swr | rwr | fref | pchg | comp | rsvdE | rsvdF => simp [isRead] at hi

/-- A read command sets the response and nothing else (R65). -/
theorem exec_of_isRead {i : Instr} (hi : isRead i = true) (s : State) : exec i s = .next (s.respond (commandResponse i s)) := by
  rw [exec_eq, commandEffect_of_isRead hi]

/-- After command `w`, command `r` answers what it answers of `w`'s effect. -/
theorem exec_exec_rsp {w r : Instr} {b : Byte} (h : commandResponse r (commandEffect w s) = some b) :
    ∃ t u, exec w s = .next t ∧ exec r t = .next u ∧ u.rsp = some b :=
  ⟨_, _, exec_eq w s, exec_eq r _, (commandResponse_respond r _ _).trans h⟩

theorem commandResponse_of_exec {i : Instr} {r : Option Byte} (h : exec i s = .next { s with rsp := r }) : commandResponse i s = r := by
  rw [exec_eq, Host.Outcome.next.injEq] at h
  exact congrArg State.rsp h

/-- A command without effect and without response only clears the response (R96). -/
theorem exec_of_no_effect {i : Instr} (heffect : commandEffect i s = s) (hrsp : commandResponse i s = none) :
    exec i s = .next { s with rsp := none } := by
  rw [exec_eq, heffect, hrsp, State.respond]

/-! ### The obligations -/

/-- Settles O10: the shape gives every layer of the configuration its state, and beyond `NLAYERS` there are no parameters. -/
theorem layersBelowCountAreMapped : Obligations.LayersBelowCountAreMapped := by
  refine fun s l hs => ⟨State.layerAt_of_lt hs, fun ⟨c, y, hy⟩ => ?_⟩
  by_contra hl
  have hnone := State.layerAt_of_ge (Nat.le_of_not_lt hl)
  simp [hnone] at hy

/-- Settles O16: a read sets the response only, and no response depends on the one before. -/
theorem readsHaveNoSideEffect : Obligations.ReadsHaveNoSideEffect := by
  intro i s hi
  obtain ⟨b, hb⟩ := commandResponse_of_isRead hi s
  have hagain : commandResponse i (s.respond (some b)) = some b := (commandResponse_respond i s _).trans hb
  refine ⟨b, ?_, ?_⟩
  · rw [exec_of_isRead hi, hb, State.respond]
  · exact (exec_of_isRead hi (s.respond (some b))).trans (by rw [hagain]; rfl)

/-- Settles O14: each read of the written store gives the byte written. -/
theorem readAnswersLastWrite : Obligations.ReadAnswersLastWrite := by
  intro s sel off v hs hl
  obtain ⟨c, y, hy⟩ := State.layerAt_of_lt hs hl
  exact ⟨exec_exec_rsp (congrArg some (State.readLayer_writeTile hs hy off v)),
    exec_exec_rsp (congrArg some (State.readLayer_writeAttr hs hy off v)),
    exec_exec_rsp (congrArg some (State.readSprite_writeSprite hs off v))⟩

/-- Settles O15: the byte a read answers is the store's, whose write has no effect. -/
theorem rewritingTheSameByteChangesNothing : Obligations.RewritingTheSameByteChangesNothing := by
  refine fun s sel off hs => ⟨fun v hread hl => ?_, fun v hread hl => ?_, fun v hread => ?_, fun v hread => ?_⟩
  · obtain ⟨c, y, hy⟩ := State.layerAt_of_lt hs hl
    have hv := Option.some.inj (commandResponse_of_exec hread)
    exact exec_of_no_effect (State.writeTile_same hy hv) rfl
  · obtain ⟨c, y, hy⟩ := State.layerAt_of_lt hs hl
    have hv := Option.some.inj (commandResponse_of_exec hread)
    exact exec_of_no_effect (State.writeAttr_same hy hv) rfl
  · have hv := Option.some.inj (commandResponse_of_exec hread)
    exact exec_of_no_effect (State.writeSprite_same hs hv) rfl
  · have hv := Option.some.inj (commandResponse_of_exec hread)
    exact exec_of_no_effect (State.writeRegister_same hv) rfl

end Sys2Proof.Machine
end

section
/-!
PROOFS. Words and commands (R92 to R95, R97, R98): the decoder on a joined word, opcode by opcode; the round trip in both directions;
the rows of the opcode map; words and pseudo-commands in numbers.
-/

namespace Sys2Proof.Machine

variable (op sel : BitVec 4) (off : BitVec 16) (data : Byte) (w : CmdWord)

/-! ### The decoder, opcode by opcode (R93, R95) -/

@[simp] theorem decode_joinFields_nop : decode (joinFields 0x0#4 sel off data) = .nop := by simp [decode]

@[simp] theorem decode_joinFields_twr : decode (joinFields 0x1#4 sel off data) = .twr sel off data := by simp [decode]

@[simp] theorem decode_joinFields_awr : decode (joinFields 0x2#4 sel off data) = .awr sel off data := by simp [decode]

@[simp] theorem decode_joinFields_trd : decode (joinFields 0x3#4 sel off data) = .trd sel off := by simp [decode]

@[simp] theorem decode_joinFields_ard : decode (joinFields 0x4#4 sel off data) = .ard sel off := by simp [decode]

@[simp] theorem decode_joinFields_swr : decode (joinFields 0x5#4 sel off data) = .swr off data := by simp [decode]

@[simp] theorem decode_joinFields_srd : decode (joinFields 0x6#4 sel off data) = .srd off := by simp [decode]

@[simp] theorem decode_joinFields_rwr : decode (joinFields 0x7#4 sel off data) = .rwr sel off data := by simp [decode]

@[simp] theorem decode_joinFields_rrd : decode (joinFields 0x8#4 sel off data) = .rrd sel off := by simp [decode]

@[simp] theorem decode_joinFields_fref : decode (joinFields 0x9#4 sel off data) = .fref := by simp [decode]

@[simp] theorem decode_joinFields_pchg : decode (joinFields 0xA#4 sel off data) = .pchg := by simp [decode]

@[simp] theorem decode_joinFields_comp : decode (joinFields 0xB#4 sel off data) = .comp := by simp [decode]

@[simp] theorem decode_joinFields_pxrd : decode (joinFields 0xC#4 sel off data) = .pxrd (pixelX off) (pixelY off) := by simp [decode]

@[simp] theorem decode_joinFields_drd : decode (joinFields 0xD#4 sel off data) = .drd sel off := by simp [decode]

@[simp] theorem decode_joinFields_rsvdE : decode (joinFields 0xE#4 sel off data) = .rsvdE := by simp [decode]

@[simp] theorem decode_joinFields_rsvdF : decode (joinFields 0xF#4 sel off data) = .rsvdF := by simp [decode]

/-! ### From a command to its word and back -/

/-- The word of a command decodes to the command (R92, R93, R97). -/
theorem decode_encode (i : Instr) : decode (encode i) = i := by
  cases i with
  | nop => exact decode_joinFields_nop ..
  | twr sel off data => exact decode_joinFields_twr ..
  | awr sel off data => exact decode_joinFields_awr ..
  | trd sel off => exact decode_joinFields_trd ..
  | ard sel off => exact decode_joinFields_ard ..
  | swr off data => exact decode_joinFields_swr ..
  | srd off => exact decode_joinFields_srd ..
  | rwr sel off data => exact decode_joinFields_rwr ..
  | rrd sel off => exact decode_joinFields_rrd ..
  | fref => exact decode_joinFields_fref ..
  | pchg => exact decode_joinFields_pchg ..
  | comp => exact decode_joinFields_comp ..
  | pxrd x y => simp [encode]
  | drd sel off => exact decode_joinFields_drd ..
  | rsvdE => exact decode_joinFields_rsvdE ..
  | rsvdF => exact decode_joinFields_rsvdF ..

/-- The 32 bits of a word, read as a number, decode as the word does (R91). -/
theorem decodeTableWord_toNat : decodeTableWord 32 w.toNat = some (decode w) := by
  have hword : BitVec.ofNat 32 (w.toNat % 2 ^ 32) = w := tableWord_toNat w
  simp only [decodeTableWord, decodeBits, Nat.le_refl, if_true, hword]

/-- Every command is well formed, and the row of its mnemonic accepts its word. -/
theorem encodedRow_of_instr (i : Instr) : Laws.EncodedRow.Statement i := by
  cases i with
  | nop => exact Laws.EncodedRow.nop
  | twr sel off data => exact Laws.EncodedRow.twr sel off data
  | awr sel off data => exact Laws.EncodedRow.awr sel off data
  | trd sel off => exact Laws.EncodedRow.trd sel off
  | ard sel off => exact Laws.EncodedRow.ard sel off
  | swr off data => exact Laws.EncodedRow.swr off data
  | srd off => exact Laws.EncodedRow.srd off
  | rwr sel off data => exact Laws.EncodedRow.rwr sel off data
  | rrd sel off => exact Laws.EncodedRow.rrd sel off
  | fref => exact Laws.EncodedRow.fref
  | pchg => exact Laws.EncodedRow.pchg
  | comp => exact Laws.EncodedRow.comp
  | pxrd x y => exact Laws.EncodedRow.pxrd x y
  | drd sel off => exact Laws.EncodedRow.drd sel off
  | rsvdE => exact Laws.EncodedRow.rsvdE
  | rsvdF => exact Laws.EncodedRow.rsvdF

/-- Settles O1: `decode_encode`, and the number of a word decodes as the word does. -/
theorem decodeEncodeRoundTrip : Obligations.DecodeEncodeRoundTrip := by
  intro i
  obtain ⟨hwf, -⟩ := encodedRow_of_instr i
  exact ⟨hwf, decode_encode i, (decodeTableWord_toNat _).trans (congrArg some (decode_encode i))⟩

/-! ### From a word to its command and back -/

/-- Settles O3: format by format; the two pixel coordinates of format P join to the offset again. -/
theorem reencodeClearsIgnoredFields : Obligations.ReencodeClearsIgnoredFields := by
  intro sel off data
  refine ⟨?usesAll, ?ignoresData, ?ignoresSel, ?usesOff, ?usesNone⟩
  case usesAll => simp [encode]
  case ignoresData => simp [encode]
  case ignoresSel => simp [encode]
  case usesOff => simp [encode, pixelY_append_pixelX]
  case usesNone => simp [encode]

/-- The opcodes by the fields their format uses (R92, R93). -/
theorem opcode_cases : op ∈ [0x1#4, 0x2#4, 0x7#4] ∨ op ∈ [0x3#4, 0x4#4, 0x8#4, 0xD#4] ∨ op = 0x5#4 ∨ op ∈ [0x6#4, 0xC#4] ∨
    op ∈ [0x0#4, 0x9#4, 0xA#4, 0xB#4, 0xE#4, 0xF#4] := by
  revert op
  decide

/-- Decoding and encoding again keeps the opcode. -/
theorem opField_encode_decode : opField (encode (decode w)) = opField w := by
  obtain ⟨hall, hdata, hsel, hoff, hnone⟩ := reencodeClearsIgnoredFields (selField w) (offField w) (dataField w)
  rw [← joinFields_fields w]
  generalize opField w = op at *
  rcases opcode_cases op with h | h | rfl | h | h
  · rw [hall op h]
  · rw [hdata op h, opField_joinFields, opField_joinFields]
  · exact (congrArg opField hsel).trans ((opField_joinFields ..).trans (opField_joinFields ..).symm)
  · rw [hoff op h, opField_joinFields, opField_joinFields]
  · rw [hnone op h, opField_joinFields, opField_joinFields]

/-! ### The rows of the opcode map (R93) -/

/-- The bits a row compares are the opcode. -/
theorem and_opMask : w &&& 0xF0000000#32 = (opField w).setWidth 32 <<< 28 := by
  refine BitVec.eq_of_getLsbD_eq fun i hi => (getLsbD_and_opMask w hi).trans ?_
  by_cases h : 28 ≤ i
  · have hbit : 28 + (i - 28) = i := by omega
    simp [opField, h, hi, hbit, show i - 28 < 4 by omega]
  · simp [h, show i < 28 by omega]

theorem mask_of_mem_opcodeTable {r : OpcodeRow} (hr : r ∈ opcodeTable) : r.mask = 0xF0000000#32 := by
  have hmasks : ∀ r ∈ opcodeTable, r.mask = 0xF0000000#32 := by decide
  exact hmasks r hr

/-- A row accepts the words that have the opcode of its pattern. -/
theorem accepts_iff_of_mem_opcodeTable {r : OpcodeRow} (hr : r ∈ opcodeTable) :
    r.accepts w = true ↔ r.pattern = (opField w).setWidth 32 <<< 28 := by
  rw [OpcodeRow.accepts, decide_eq_true_eq, mask_of_mem_opcodeTable hr, and_opMask, eq_comm]

theorem opcodeTable_patterns_nodup : (opcodeTable.map OpcodeRow.pattern).Nodup := by decide

/-- Settles O2: the row of the decoded command accepts its word, which has the opcode of `w`; and no two rows share a pattern. -/
theorem everyWordMatchesOneRow : Obligations.EveryWordMatchesOneRow := by
  intro w
  obtain ⟨-, r, hr, hname, haccepts⟩ := encodedRow_of_instr (decode w)
  have hpattern : r.pattern = (opField w).setWidth 32 <<< 28 := by
    rw [(accepts_iff_of_mem_opcodeTable _ hr).1 haccepts, opField_encode_decode]
  refine ⟨r, hr, (accepts_iff_of_mem_opcodeTable w hr).2 hpattern, hname, hpattern, fun r' hr' haccepts' => ?_⟩
  have hpattern' := (accepts_iff_of_mem_opcodeTable w hr').1 haccepts'
  exact List.inj_on_of_nodup_map opcodeTable_patterns_nodup hr' hr (hpattern'.trans hpattern.symm)

/-! ### Words and halves in numbers -/

/-- A joined word as a number (R92). -/
theorem joinFields_toNat :
    (joinFields op sel off data).toNat = op.toNat <<< 28 ||| sel.toNat <<< 24 ||| off.toNat <<< 8 ||| data.toNat := by
  calc (joinFields op sel off data).toNat
      = ((op.toNat <<< 4 ||| sel.toNat) <<< 16 ||| off.toNat) <<< 8 ||| data.toNat := by
        rw [joinFields, BitVec.toNat_append (op ++ sel ++ off) data, BitVec.toNat_append (op ++ sel) off, BitVec.toNat_append op sel]
    _ = op.toNat <<< 28 ||| sel.toNat <<< 24 ||| off.toNat <<< 8 ||| data.toNat := by
        simp only [Nat.shiftLeft_or_distrib, ← Nat.shiftLeft_add, Nat.reduceAdd]

/-- The offset of format P as a number (R99). -/
theorem append_shiftLeft_eight (x y : Byte) : (y ++ x).toNat <<< 8 = y.toNat <<< 16 ||| x.toNat <<< 8 := by
  rw [BitVec.toNat_append, Nat.shiftLeft_or_distrib, ← Nat.shiftLeft_add]

/-- Settles O4: each clause is `joinFields_toNat` for the fields `encode` joins; the commands without operands are single words. -/
theorem assemblerEncodings : Obligations.AssemblerEncodings := by
  refine ⟨fun l i v => ?layerAndSprite, fun x y => ?pixel, by decide⟩
  case layerAndSprite => simp [encode, joinFields_toNat]
  case pixel => simp [encode, joinFields_toNat, append_shiftLeft_eight, Nat.or_assoc]

/-- The low byte of 16 bits, as a number. -/
theorem extractLsb'_low_eq_ofNat (v : BitVec 16) : v.extractLsb' 0 8 = BitVec.ofNat 8 (v.toNat % 256) := by
  apply BitVec.eq_of_toNat_eq
  simp

/-- The high byte of 16 bits, as a number. -/
theorem extractLsb'_high_eq_ofNat (v : BitVec 16) : v.extractLsb' 8 8 = BitVec.ofNat 8 (v.toNat / 256) := by
  apply BitVec.eq_of_toNat_eq
  simp [Nat.shiftRight_eq_div_pow]

/-- The low byte of a signed number taken modulo 65536 (R98). -/
theorem extractLsb'_low_ofInt (x : Int) : (BitVec.ofInt 16 x).extractLsb' 0 8 = BitVec.ofInt 8 (x % 256) := by
  apply BitVec.eq_of_toNat_eq
  simp only [extractLsb'_low_eq_ofNat, BitVec.toNat_ofNat, BitVec.toNat_ofInt]
  omega

/-- The high byte of a signed number taken modulo 65536 (R98). -/
theorem extractLsb'_high_ofInt (x : Int) : (BitVec.ofInt 16 x).extractLsb' 8 8 = BitVec.ofInt 8 (x / 256 % 256) := by
  apply BitVec.eq_of_toNat_eq
  simp only [extractLsb'_high_eq_ofNat, BitVec.toNat_ofNat, BitVec.toNat_ofInt]
  omega

/-- The writes of a scroll register in numbers. -/
theorem scrollWrites_eq (l : BitVec 4) (low high v : BitVec 16) : scrollWrites l low high v =
    [.rwr l low (BitVec.ofNat 8 (v.toNat % 256)), .rwr l high (BitVec.ofNat 8 (v.toNat / 256))] := by
  rw [scrollWrites, extractLsb'_low_eq_ofNat, extractLsb'_high_eq_ofNat]

/-- Settles O6: scroll values and sprite fields of two bytes go out low byte first, at consecutive indices. -/
theorem pseudoCommandsExpand : Obligations.PseudoCommandsExpand := by
  refine ⟨fun _ => rfl, fun l v => scrollWrites_eq l 2 3 v, fun l v => scrollWrites_eq l 4 5 v, fun _ _ _ _ => rfl,
    fun _ _ _ _ _ => rfl, fun n x y code color flags pmask => ?_⟩
  simp only [Pseudo.expand, extractLsb'_low_ofInt, extractLsb'_high_ofInt, extractLsb'_low_eq_ofNat code, extractLsb'_high_eq_ofNat code]
  rfl

/-! ### Samples and reserved opcodes -/

/-- Settles O5: the decoder evaluated on each word. -/
theorem sampleWordsDecode : Obligations.SampleWordsDecode := by
  unfold Obligations.SampleWordsDecode
  decide

/-- Settles O21: a reserved command has no effect and the response `FILL`. -/
theorem reservedOpcodesAnswerFill : Obligations.ReservedOpcodesAnswerFill :=
  fun s sel off d => ⟨decode_joinFields_rsvdE sel off d, decode_joinFields_rsvdF sel off d, exec_eq .rsvdE s, exec_eq .rsvdF s⟩

end Sys2Proof.Machine
end

section
/-!
PROOFS. The memory port commands (`40_memory_port_ops.md` R120 to R127): what each write makes of the state, what each read answers,
and what an access outside the layers or the screen does (R67, R128).
-/

namespace Sys2Proof.Machine

variable {s : State} {c : LayerCfg} {y : Layer} {sel : BitVec 4}

/-! ### Accesses to a layer that does not exist (R67, R128) -/

theorem State.readLayer_of_unmapped (h : s.cfg.nLayers ≤ sel.toNat) (off : BitVec 16) (f : Layer → Nat → Byte) :
    s.readLayer sel off f = s.cfg.fill := by
  simp only [State.readLayer, State.layerAt_of_ge h]

theorem State.writeTile_of_unmapped (h : s.cfg.nLayers ≤ sel.toNat) (off : BitVec 16) (v : Byte) : s.writeTile sel off v = s := by
  simp only [State.writeTile, State.layerAt_of_ge h]

theorem State.writeAttr_of_unmapped (h : s.cfg.nLayers ≤ sel.toNat) (off : BitVec 16) (v : Byte) : s.writeAttr sel off v = s := by
  simp only [State.writeAttr, State.layerAt_of_ge h]

/-! ### The tracked writes, field by field (R120, R121) -/

/-- `TWR`'s write touches `TM` and the dirty bits of the layer only. -/
theorem Layer.writeTm_eq_update (y : Layer) (i : Nat) (v : Byte) :
    y.writeTm i v = { y with tm := (y.writeTm i v).tm, dirty := (y.writeTm i v).dirty } := by
  unfold Layer.writeTm
  split <;> rfl

/-- `AWR`'s write touches `AM` and the dirty bits of the layer only. -/
theorem Layer.writeAm_eq_update (y : Layer) (i : Nat) (v : Byte) :
    y.writeAm i v = { y with am := (y.writeAm i v).am, dirty := (y.writeAm i v).dirty } := by
  unfold Layer.writeAm
  split <;> rfl

/-- On a mapped layer `TWR` replaces that layer by its tracked write. -/
theorem exec_twr_of_mapped (h : s.layerAt sel.toNat = some (c, y)) (off : BitVec 16) (v : Byte) : exec (.twr sel off v) s =
    .next { s with layers := s.layers.set sel.toNat (y.writeTm (tileIndex c off) v), rsp := none } := by
  rw [exec_eq, commandEffect, State.writeTile_of_mapped h, State.updLayer_eq_set h]
  rfl

/-- On a mapped layer `AWR` replaces that layer by its tracked write. -/
theorem exec_awr_of_mapped (h : s.layerAt sel.toNat = some (c, y)) (off : BitVec 16) (v : Byte) : exec (.awr sel off v) s =
    .next { s with layers := s.layers.set sel.toNat (y.writeAm (tileIndex c off) v), rsp := none } := by
  rw [exec_eq, commandEffect, State.writeAttr_of_mapped h, State.updLayer_eq_set h]
  rfl

/-- Naming the written index `i` by `k` in the condition of a dirty bit. -/
theorem changed_at_iff (m : Memory) (i k : Nat) (v : Byte) : (k = i ∧ Memory.read m i ≠ v) ↔ (k = i ∧ Memory.read m k ≠ v) :=
  and_congr_right fun hk => hk ▸ Iff.rfl

/-! ### What the reads answer -/

/-- A read command answers its byte and keeps the rest of the state. -/
theorem exec_of_read_answer {i : Instr} {b : Byte} (hi : isRead i = true) (hb : commandResponse i s = some b) :
    exec i s = .next { s with rsp := some b } := by
  rw [exec_of_isRead hi, hb, State.respond]

/-- `DRD` answers whether the tile is in the dirty set (R126). -/
theorem dirtyByte_eq (y : Layer) (i : Nat) : dirtyByte y i = if i ∈ y.dirty then 0x01 else 0x00 := by
  simp only [dirtyByte, DirtySet.has_iff]

theorem State.readPixel_on_screen {px py : Nat} (hx : px < s.cfg.screenW) (hy : py < s.cfg.screenH) :
    s.readPixel px py = Memory.read s.fb (pixelKey s.cfg px py) :=
  if_pos ⟨hx, hy⟩

/-- Positions outside the screen are unmapped, not wrapped (R127). -/
theorem State.readPixel_off_screen {px py : Nat} (h : s.cfg.screenW ≤ px ∨ s.cfg.screenH ≤ py) : s.readPixel px py = s.cfg.fill :=
  if_neg (by omega)

/-! ### The obligations -/

/-- Settles O7: an unmapped write is dropped; a mapped one is the layer's tracked write, whose laws give byte and dirty bit. -/
theorem twrEffect : Obligations.TwrEffect := by
  refine fun s sel off v hs => ⟨decode_joinFields_twr sel off v,
    fun hl => exec_of_no_effect (State.writeTile_of_unmapped hl off v) rfl, fun c y hy => ?_⟩
  obtain ⟨htm, -⟩ := Layer.wf_iff.1 (State.layer_wf hs hy)
  refine ⟨(y.writeTm (tileIndex c off) v).tm, (y.writeTm (tileIndex c off) v).dirty, ?state, rfl, ?bytes, ?bits, ?same⟩
  case state => rw [exec_twr_of_mapped hy, ← Layer.writeTm_eq_update]
  case bytes => exact fun k => Layer.read_writeTm htm _ k v
  case bits => exact fun k => (Layer.has_writeTm y _ k v).trans (or_congr_right (changed_at_iff y.tm _ k v))
  case same => exact fun hv => ⟨congrArg Layer.tm (Layer.writeTm_same hv), congrArg Layer.dirty (Layer.writeTm_same hv)⟩

/-- Settles O8: as O7, with the laws of the write to `AM`. -/
theorem awrEffect : Obligations.AwrEffect := by
  refine fun s sel off v hs => ⟨decode_joinFields_awr sel off v,
    fun hl => exec_of_no_effect (State.writeAttr_of_unmapped hl off v) rfl, fun c y hy => ?_⟩
  obtain ⟨-, ham, -⟩ := Layer.wf_iff.1 (State.layer_wf hs hy)
  refine ⟨(y.writeAm (tileIndex c off) v).am, (y.writeAm (tileIndex c off) v).dirty, ?state, rfl, ?bytes, ?bits, ?same⟩
  case state => rw [exec_awr_of_mapped hy, ← Layer.writeAm_eq_update]
  case bytes => exact fun k => Layer.read_writeAm ham _ k v
  case bits => exact fun k => (Layer.has_writeAm y _ k v).trans (or_congr_right (changed_at_iff y.am _ k v))
  case same => exact fun hv => ⟨congrArg Layer.am (Layer.writeAm_same hv), congrArg Layer.dirty (Layer.writeAm_same hv)⟩

/-- Settles O9: the three reads differ only in the store they read of the mapped layer. -/
theorem layerReadsRespond : Obligations.LayerReadsRespond := by
  refine fun s sel off d => ⟨decode_joinFields_trd sel off d, decode_joinFields_ard sel off d, decode_joinFields_drd sel off d,
    fun hl => ?unmapped, fun c y hy => ?mapped⟩
  case unmapped =>
    have hfill := fun f => congrArg some (State.readLayer_of_unmapped hl off f)
    exact ⟨exec_of_read_answer rfl (hfill _), exec_of_read_answer rfl (hfill _), exec_of_read_answer rfl (hfill _)⟩
  case mapped =>
    have hread := State.readLayer_of_mapped hy off
    exact ⟨exec_of_read_answer rfl (congrArg some (hread _)), exec_of_read_answer rfl (congrArg some (hread _)),
      exec_of_read_answer rfl (congrArg some ((hread dirtyByte).trans (dirtyByte_eq y _)))⟩

/-- Settles O11: `SWR` is one write of sprite RAM, a space in canonical form. -/
theorem swrEffect : Obligations.SwrEffect := by
  intro s sel off v hs
  obtain ⟨-, -, hspr, -⟩ := State.wf_iff.1 hs
  exact ⟨decode_joinFields_swr sel off v, Memory.write s.spr (spriteIndex s.cfg off) v, exec_eq (.swr off v) s, rfl,
    fun k => Memory.read_write hspr _ k v⟩

/-- Settles O12: the response of `SRD` is sprite RAM read at `spriteIndex`, the offset modulo `SPR_BYTES`. -/
theorem srdResponds : Obligations.SrdResponds :=
  fun _ sel off d => ⟨decode_joinFields_srd sel off d, exec_of_read_answer rfl rfl⟩

/-- Settles O13: the halves of the offset are the position, which is on the screen or is not. -/
theorem pxrdResponds : Obligations.PxrdResponds := by
  refine fun s sel off d => ⟨?decoded, fun x y => ⟨fun ⟨hx, hy⟩ => ?onScreen, fun hout => ?offScreen, ?presented⟩⟩
  case decoded =>
    exact (decode_joinFields_pxrd sel off d).trans
      (congrArg₂ Instr.pxrd (extractLsb'_low_eq_ofNat off) (extractLsb'_high_eq_ofNat off))
  case onScreen => exact exec_of_read_answer rfl (congrArg some (State.readPixel_on_screen hx hy))
  case offScreen => exact exec_of_read_answer rfl (congrArg some (State.readPixel_off_screen hout))
  case presented => exact exec_of_read_answer rfl rfl

end Sys2Proof.Machine
end

section
/-!
PROOFS. The control commands (`41_control_ops.md` R140 to R145): which register a number selects, what a write of it makes of the
state and what a read of it answers; the register bytes in numbers (R30 to R32); the refresh requests.
-/

namespace Sys2Proof.Machine

/-! ### Register selection (R143) -/

section Selection

variable (cfg : Cfg) (sel : BitVec 4)

theorem selectReg_zero : selectReg cfg sel 0#16 = some .ctrl := rfl

theorem selectReg_one : selectReg cfg sel 1#16 = some .status := rfl

theorem selectReg_two : selectReg cfg sel 2#16 = perLayer cfg sel .scxl := rfl

theorem selectReg_three : selectReg cfg sel 3#16 = perLayer cfg sel .scxh := rfl

theorem selectReg_four : selectReg cfg sel 4#16 = perLayer cfg sel .scyl := rfl

theorem selectReg_five : selectReg cfg sel 5#16 = perLayer cfg sel .scyh := rfl

end Selection

variable {s : State} {c : LayerCfg} {y : Layer} {cfg : Cfg} {sel : BitVec 4} {off : BitVec 16} {r : Reg}

/-- Register numbers are not wrapped. -/
theorem selectReg_of_six_le (h : 6 ≤ off.toNat) : selectReg cfg sel off = none := by
  unfold selectReg
  split
  case h_7 => rfl
  all_goals omega

theorem perLayer_of_unmapped (h : cfg.nLayers ≤ sel.toNat) (f : Nat → Reg) : perLayer cfg sel f = none :=
  if_neg (Nat.not_lt.2 h)

theorem perLayer_of_mapped (h : s.layerAt sel.toNat = some (c, y)) (f : Nat → Reg) : perLayer s.cfg sel f = some (f sel.toNat) := by
  refine perLayer_eq_some.2 ⟨?_, rfl⟩
  by_contra hl
  simp [State.layerAt_of_ge (Nat.le_of_not_lt hl)] at h

/-- The scroll registers of a layer that does not exist are unmapped. -/
theorem selectReg_of_unmapped (h : cfg.nLayers ≤ sel.toNat) (hoff : off ∈ [2#16, 3#16, 4#16, 5#16]) : selectReg cfg sel off = none := by
  have hnone := perLayer_of_unmapped h
  simp only [List.mem_cons, List.not_mem_nil, or_false] at hoff
  obtain rfl | rfl | rfl | rfl := hoff
  · rw [selectReg_two, hnone]
  · rw [selectReg_three, hnone]
  · rw [selectReg_four, hnone]
  · rw [selectReg_five, hnone]

/-! ### Register accesses (R141, R142) -/

/-- A write of an unmapped register is dropped (R67). -/
theorem exec_rwr_of_unselected (h : selectReg s.cfg sel off = none) (v : Byte) :
    exec (.rwr sel off v) s = .next { s with rsp := none } :=
  exec_of_no_effect (by simp only [commandEffect, State.writeRegister, h]) rfl

theorem exec_rwr_of_selected (h : selectReg s.cfg sel off = some r) (v : Byte) :
    exec (.rwr sel off v) s = .next ((s.writeReg r v).respond none) := by
  simp only [exec_eq, commandEffect, commandResponse, State.writeRegister, h]

/-- A write of a scroll register `f` replaces the layer by its update `g`. -/
theorem exec_rwr_of_perLayer {f : Nat → Reg} {g : Layer → Layer} {v : Byte} (hy : s.layerAt sel.toNat = some (c, y))
    (hoff : selectReg s.cfg sel off = perLayer s.cfg sel f) (hg : s.writeReg (f sel.toNat) v = s.updLayer sel.toNat g) :
    exec (.rwr sel off v) s = .next { s with layers := s.layers.set sel.toNat (g y), rsp := none } := by
  rw [exec_rwr_of_selected (hoff.trans (perLayer_of_mapped hy f)), hg, State.updLayer_eq_set hy]
  rfl

/-- A read of an unmapped register answers `FILL` (R67). -/
theorem exec_rrd_of_unselected (h : selectReg s.cfg sel off = none) : exec (.rrd sel off) s = .next { s with rsp := some s.cfg.fill } :=
  exec_of_read_answer rfl (by simp only [commandResponse, State.readRegister, h])

theorem exec_rrd_of_selected (h : selectReg s.cfg sel off = some r) :
    exec (.rrd sel off) s = .next { s with rsp := some (s.readReg r) } :=
  exec_of_read_answer rfl (by simp only [commandResponse, State.readRegister, h])

theorem State.layerByte_of_mapped {l : Nat} (h : s.layerAt l = some (c, y)) (g : Layer → Byte) : s.layerByte l g = g y := by
  simp only [State.layerByte, (State.layerAt_eq_some.1 h).2]

/-- A read of a scroll register `f` answers its byte `g` of the layer. -/
theorem exec_rrd_of_perLayer {f : Nat → Reg} {g : Layer → Byte} (hy : s.layerAt sel.toNat = some (c, y))
    (hoff : selectReg s.cfg sel off = perLayer s.cfg sel f) (hg : s.readReg (f sel.toNat) = s.layerByte sel.toNat g) :
    exec (.rrd sel off) s = .next { s with rsp := some (g y) } := by
  rw [exec_rrd_of_selected (hoff.trans (perLayer_of_mapped hy f)), hg, State.layerByte_of_mapped hy]

/-! ### The register bytes in numbers (R30 to R32) -/

theorem State.ctrlByte_eq (s : State) : s.ctrlByte = BitVec.ofNat 8 s.flip.toNat := by
  unfold State.ctrlByte
  cases s.flip <;> rfl

theorem State.statusByte_eq (s : State) : s.statusByte = BitVec.ofNat 8 (2 * s.palchg.toNat + s.fullref.toNat) := by
  unfold State.statusByte
  cases s.palchg <;> cases s.fullref <;> rfl

theorem lowByte_eq (x : BitVec 16) : lowByte x = BitVec.ofNat 8 (x.toNat % 256) := extractLsb'_low_eq_ofNat x

theorem highByte_eq (x : BitVec 16) : highByte x = BitVec.ofNat 8 (x.toNat / 256) := extractLsb'_high_eq_ofNat x

/-- A write of the low half keeps the high half. -/
theorem setLowByte_toNat (x : BitVec 16) (v : Byte) : (setLowByte x v).toNat = x.toNat / 256 * 256 + v.toNat := by
  rw [setLowByte, append_toNat_eq, highByte_eq, BitVec.toNat_ofNat]
  omega

/-- A write of the high half keeps the low half. -/
theorem setHighByte_toNat (x : BitVec 16) (v : Byte) : (setHighByte x v).toNat = v.toNat * 256 + x.toNat % 256 := by
  rw [setHighByte, append_toNat_eq, lowByte_eq, BitVec.toNat_ofNat]
  omega

/-! ### The obligations -/

/-- Settles O19: the register number selects `CTRL`, `STATUS`, one half of a scroll value of an existing layer, or nothing. -/
theorem rwrEffect : Obligations.RwrEffect := by
  refine fun s sel off v => ⟨decode_joinFields_rwr sel off v, ?ctrl, exec_rwr_of_selected (selectReg_one s.cfg sel) v,
    fun hoff => exec_rwr_of_unselected (selectReg_of_six_le hoff) v,
    fun hl r hr => exec_rwr_of_unselected (selectReg_of_unmapped hl hr) v, fun c y hy => ?scroll⟩
  case ctrl =>
    rw [bne_comm]
    exact exec_rwr_of_selected (selectReg_zero s.cfg sel) v
  case scroll =>
    exact ⟨setLowByte y.scx v, setHighByte y.scx v, setLowByte y.scy v, setHighByte y.scy v,
      setLowByte_toNat y.scx v, setHighByte_toNat y.scx v, setLowByte_toNat y.scy v, setHighByte_toNat y.scy v,
      exec_rwr_of_perLayer hy (selectReg_two s.cfg sel) rfl, exec_rwr_of_perLayer hy (selectReg_three s.cfg sel) rfl,
      exec_rwr_of_perLayer hy (selectReg_four s.cfg sel) rfl, exec_rwr_of_perLayer hy (selectReg_five s.cfg sel) rfl⟩

/-- Settles O17: `NOP` has no effect and no response. -/
theorem nopDoesNothing : Obligations.NopDoesNothing :=
  fun _ sel off d => ⟨decode_joinFields_nop sel off d, exec_of_no_effect rfl rfl⟩

/-- Settles O18: the effect of each command is its one flag. -/
theorem refreshRequests : Obligations.RefreshRequests :=
  fun s sel off d => ⟨decode_joinFields_fref sel off d, decode_joinFields_pchg sel off d, exec_eq .fref s, exec_eq .pchg s⟩

/-- Settles O20: the read answers the byte of the register selected, or `FILL` where none is. -/
theorem rrdResponds : Obligations.RrdResponds := by
  refine fun s sel off d => ⟨decode_joinFields_rrd sel off d, ?ctrl, ?status,
    fun hoff => exec_rrd_of_unselected (selectReg_of_six_le hoff),
    fun hl r hr => exec_rrd_of_unselected (selectReg_of_unmapped hl hr), fun c y hy => ?scroll⟩
  case ctrl =>
    rw [← State.ctrlByte_eq]
    exact exec_rrd_of_selected (selectReg_zero s.cfg sel)
  case status =>
    rw [← State.statusByte_eq]
    exact exec_rrd_of_selected (selectReg_one s.cfg sel)
  case scroll =>
    simp only [← lowByte_eq, ← highByte_eq]
    exact ⟨exec_rrd_of_perLayer hy (selectReg_two s.cfg sel) rfl, exec_rrd_of_perLayer hy (selectReg_three s.cfg sel) rfl,
      exec_rrd_of_perLayer hy (selectReg_four s.cfg sel) rfl, exec_rrd_of_perLayer hy (selectReg_five s.cfg sel) rfl⟩

end Sys2Proof.Machine
end

section
/-!
PROOFS. The tile phases of `COMP` (`42_tile_compositor.md` R160 to R173): what becomes of each layer record, the tile rectangles, the
scrolled source of a screen pixel, the layer in front of it, and the point mirror that `CTRL.FLIP` makes of the picture.
-/

namespace Sys2Proof.Machine

variable {s t : State} {cfg : Cfg} {c : LayerCfg} {y z : Layer} {l px py : Nat} {flip : Bool}

/-! ### Layer records through `COMP` (R25, R160 to R163) -/

/-- In a well-shaped state every layer record belongs to a layer of the configuration. -/
theorem State.exists_layerAt_of_record (hs : s.wf = true) (hy : s.layers[l]? = some y) : ∃ c, s.layerAt l = some (c, y) := by
  have hlen := (layersWf_iff.1 (State.wf_iff.1 hs).2.1).1
  obtain ⟨hl, -⟩ := List.getElem?_eq_some_iff.1 hy
  exact ⟨_, State.layerAt_eq_some.2 ⟨List.getElem?_eq_getElem (hlen ▸ hl), hy⟩⟩

/-- `COMP` empties the dirty set of a layer record, draws in its bitmap and leaves the rest. -/
theorem State.composite_record (hs : s.wf = true) (hy : s.layers[l]? = some y) :
    ∃ bmp, s.composite.layers[l]? = some { y with dirty := [], bmp := bmp } := by
  obtain ⟨c, hcy⟩ := State.exists_layerAt_of_record hs hy
  obtain ⟨z, hz, hdirty, hr⟩ := State.composite_layer hs hcy
  have hrecord : z = { y with dirty := [], bmp := z.bmp } := by
    have htm := hr.tm.trans State.invalidated_tm
    have ham := hr.am.trans State.invalidated_am
    have hscx := hr.scx.trans State.invalidated_scx
    have hscy := hr.scy.trans State.invalidated_scy
    rw [← htm, ← ham, ← hscx, ← hscy, ← hdirty]
  exact ⟨z.bmp, hrecord ▸ (State.layerAt_eq_some.1 hz).2⟩

/-- Settles O35: each phase changes its own fields, and each record changes as `composite_record` says. -/
theorem compFrame : Obligations.CompFrame := by
  intro s sel off d hs
  exact ⟨decode_joinFields_comp sel off d, s.composite.layers, s.composite.fb, s.composite.pri, exec_eq .comp s,
    State.composite_layers_length, fun l y hy => State.composite_record hs hy⟩

/-- Settles O36: phase 1 decides what is dirty, and phase 2 draws exactly those rectangles. -/
theorem compRedrawsExactlyTheDirtyTiles : Obligations.CompRedrawsExactlyTheDirtyTiles := by
  intro s l c y hs hy
  obtain ⟨z, hz, -, hr⟩ := State.composite_layer hs hy
  refine ⟨_, z, exec_eq .comp s, hz, fun i hi hd dx hdx dy hdy => ?drawn, fun k hk => ?kept⟩
  case drawn =>
    have := hr.drawn i hi ((State.has_invalidated hi).2 hd) dx hdx dy hdy
    rwa [rectKey_congr State.invalidated_am, renderPen_congr State.invalidated_tm State.invalidated_am] at this
  case kept =>
    rw [hr.kept k fun i hi hd => ?_, State.invalidated_bmp]
    rw [inRect_congr State.invalidated_am]
    exact hk i hi ((State.has_invalidated hi).1 hd)

/-! ### Tile rectangles (R165) -/

/-- Settles O38: the rectangles cover the bitmap, and none shares a pixel with another. -/
theorem everyBitmapPixelIsOneTiles : Obligations.EveryBitmapPixelIsOneTiles := by
  intro c y flip k hc hk
  have hrow : k / c.bw < c.bh := Nat.div_lt_of_lt_mul (hk.trans_eq (Nat.mul_comm c.bh c.bw))
  obtain ⟨i, hi, dx, hdx, dy, hdy, hrect⟩ := exists_rectKey (flip := flip) y (Nat.mod_lt k (LayerCfg.bw_pos hc)) hrow
  rw [Nat.mul_comm, Nat.div_add_mod] at hrect
  refine ⟨i, dx, dy, hi, hdx, hdy, hrect, fun i' dx' dy' hi' hdx' hdy' hrect' => ?_⟩
  exact rectKey_inj hi' hi hdx' hdy' hdx hdy (hrect'.trans hrect.symm)

/-! ### The scrolled source (R167, R169) -/

section Axis

variable {size screen pos : Nat} {scroll : BitVec 16}

theorem sourceAxis_false : sourceAxis false pos scroll size screen = (pos + scroll.toNat) % size := rfl

theorem sourceAxis_true (h : 0 < size) :
    (sourceAxis true pos scroll size screen : Int) = ((pos : Int) - scroll.toNat + size - screen) % size :=
  Int.toNat_of_nonneg (Int.emod_nonneg _ (by omega))

theorem sourceAxis_lt (h : 0 < size) (flip : Bool) : sourceAxis flip pos scroll size screen < size := by
  cases flip with
  | false => exact Nat.mod_lt _ h
  | true =>
    have := Int.emod_lt_of_pos ((pos : Int) - scroll.toNat + size - screen) (Int.natCast_pos.2 h)
    rw [← sourceAxis_true h] at this
    omega

/-- The flipped source `r` is what a position leaves modulo the size, so the mirrored position leaves `size - 1 - r` (R173). -/
theorem sourceAxis_mirror (h : 0 < size) (hpos : pos < screen) :
    sourceAxis false (screen - 1 - pos) scroll size screen = size - 1 - sourceAxis true pos scroll size screen := by
  have hr := sourceAxis_lt (pos := pos) (scroll := scroll) (screen := screen) h true
  have hdiv := Int.emod_add_mul_ediv ((pos : Int) - scroll.toNat + size - screen) size
  rw [← sourceAxis_true h] at hdiv
  generalize sourceAxis true pos scroll size screen = r at hr hdiv
  generalize ((pos : Int) - scroll.toNat + size - screen) / size = q at hdiv
  have hmirror : ((screen - 1 - pos + scroll.toNat : Nat) : Int) = (size - 1 - r : Nat) + size * -q := by
    rw [Int.mul_neg]
    omega
  rw [sourceAxis_false]
  refine Int.ofNat_inj.1 ?_
  rw [Int.natCast_emod, hmirror, Int.add_mul_emod_self_left]
  exact Int.emod_eq_of_lt (by omega) (by omega)

end Axis

/-- Settles O42. -/
theorem flippedScrollIsTheMirror : Obligations.FlippedScrollIsTheMirror :=
  fun _ _ _ _ hsize hpos =>
    ⟨sourceAxis_false, sourceAxis_true hsize, sourceAxis_lt hsize true, (sourceAxis_mirror hsize hpos).symm⟩

/-- Settles O55: the two coordinates are the two axes of `LayerSource`. -/
theorem layerPenReadsTheScrolledSource : Obligations.LayerPenReadsTheScrolledSource := by
  intro cfg flip c y px py hc
  have hw := LayerCfg.bw_pos hc
  have hh := LayerCfg.bh_pos hc
  refine ⟨_, _, rfl, sourceAxis_lt hw flip, sourceAxis_lt hh flip, ?unflipped, ?flipped⟩
  case unflipped =>
    rintro rfl
    exact ⟨sourceAxis_false (screen := cfg.screenW), sourceAxis_false (screen := cfg.screenH)⟩
  case flipped =>
    rintro rfl
    exact ⟨sourceAxis_true hw, sourceAxis_true hh⟩

/-! ### The frontmost opaque layer (R166, R168, R170) -/

/-- A stack of layers that are all transparent at the pixel shows what is below it. -/
theorem stackPen_of_transparent {cs : List LayerCfg} {ys : List Layer} {pen : Byte}
    (h : ∀ (l : Nat) c y, cs[l]? = some c → ys[l]? = some y → c.transp = some (layerPen cfg flip c y px py)) :
    stackPen cfg flip px py cs ys pen = pen := by
  induction cs generalizing ys with
  | nil => rfl
  | cons c cs ih =>
    cases ys with
    | nil => rfl
    | cons y ys =>
      have htop : ¬ opaquePen c.transp (layerPen cfg flip c y px py) = true := fun ho => (opaquePen_iff _ _).1 ho (h 0 c y rfl rfl)
      rw [stackPen, if_neg htop]
      exact ih fun l c' y' hc hy => h (l + 1) c' y' hc hy

/-- A stack shows the pen of a layer opaque at the pixel with none but transparent layers in front of it. -/
theorem stackPen_of_frontmost {cs : List LayerCfg} {ys : List Layer} {pen : Byte} (hc : cs[l]? = some c) (hy : ys[l]? = some y)
    (ho : c.transp ≠ some (layerPen cfg flip c y px py))
    (hfront : ∀ l' > l, ∀ c' y', cs[l']? = some c' → ys[l']? = some y' → c'.transp = some (layerPen cfg flip c' y' px py)) :
    stackPen cfg flip px py cs ys pen = layerPen cfg flip c y px py := by
  induction cs generalizing ys l pen with
  | nil => simp at hc
  | cons c₀ cs ih =>
    cases ys with
    | nil => simp at hy
    | cons y₀ ys =>
      rw [stackPen]
      cases l with
      | zero =>
        obtain rfl : c₀ = c := Option.some.inj hc
        obtain rfl : y₀ = y := Option.some.inj hy
        rw [if_pos ((opaquePen_iff _ _).2 ho)]
        exact stackPen_of_transparent fun l c' y' hc' hy' => hfront (l + 1) l.succ_pos c' y' hc' hy'
      | succ l => exact ih hc hy fun l' hl' c' y' hc' hy' => hfront (l' + 1) (Nat.succ_lt_succ hl') c' y' hc' hy'

/-- A layer that shows no pen at a pixel is transparent there. -/
theorem State.transparent_of_not_showsPen (h : ∀ pen, ¬ s.compositeTiles.showsPen l px py pen) (hc : s.cfg.layers[l]? = some c)
    (hy : s.composite.layers[l]? = some y) : c.transp = some (layerPen s.cfg s.flip c y px py) := by
  by_contra ho
  exact h _ ⟨c, y, State.layerAt_eq_some.2 ⟨hc, hy⟩, rfl, ho⟩

/-- Settles O40: phase 4 stacks the layers over the background pen. -/
theorem tilePictureIsFrontmostOpaqueLayer : Obligations.TilePictureIsFrontmostOpaqueLayer := by
  intro s px py _ hx hy
  rw [show py * s.cfg.screenW + px = pixelKey s.cfg px py from rfl, State.compositeTiles_fb hx hy]
  refine ⟨?frontmost, fun hnone => stackPen_of_transparent fun l c y hc hy => State.transparent_of_not_showsPen (hnone l) hc hy⟩
  case frontmost =>
    rintro l pen ⟨c, y, hcy, rfl, ho⟩ hfront
    obtain ⟨hc, hy⟩ := State.layerAt_eq_some.1 hcy
    exact stackPen_of_frontmost hc hy ho fun l' hl' c' y' hc' hy' => State.transparent_of_not_showsPen (hfront l' hl') hc' hy'

/-! ### The point mirror (R173) -/

/-- Stacks with equal pens layer by layer leave equal bytes, in the framebuffer and in the priority buffer. -/
theorem stack_congr {flip' : Bool} {px' py' : Nat} {cs : List LayerCfg} {ys zs : List Layer} (hlen : ys.length = zs.length)
    (h : ∀ (l : Nat) c y z, cs[l]? = some c → ys[l]? = some y → zs[l]? = some z →
      layerPen cfg flip c y px py = layerPen cfg flip' c z px' py') (pen pri : Byte) :
    stackPen cfg flip px py cs ys pen = stackPen cfg flip' px' py' cs zs pen ∧
      stackPri cfg flip px py cs ys pri = stackPri cfg flip' px' py' cs zs pri := by
  induction cs generalizing ys zs pen pri with
  | nil => exact ⟨rfl, rfl⟩
  | cons c cs ih =>
    match ys, zs with
    | [], [] => exact ⟨rfl, rfl⟩
    | y :: ys, z :: zs =>
      simp only [stackPen, stackPri, h 0 c y z rfl rfl rfl]
      exact ih (Nat.succ.inj hlen) (fun l c' y' z' hc hy hz => h (l + 1) c' y' z' hc hy hz) _ _

/-- Of equal `TM` and `AM` the flipped bitmap is the point mirror of the unflipped one: rectangle by rectangle, pen by pen. -/
theorem bmp_mirror_of_shown (htm : z.tm = y.tm) (ham : z.am = y.am) (hys : ∀ k < c.nt, tileShown c false y k)
    (hzs : ∀ k < c.nt, tileShown c true z k) {u v : Nat} (hu : u < c.bw) (hv : v < c.bh) :
    Memory.read z.bmp ((c.bh - 1 - v) * c.bw + (c.bw - 1 - u)) = Memory.read y.bmp (v * c.bw + u) := by
  obtain ⟨k, hk, dx, hdx, dy, hdy, hrect⟩ := exists_rectKey (flip := false) y hu hv
  obtain ⟨u', hu', v', -, hrect', hmirror⟩ := rectKey_flip (y := y) hk hdx hdy
  obtain ⟨rfl, rfl⟩ := rowMajor_inj hu hu' (hrect.symm.trans hrect')
  calc Memory.read z.bmp ((c.bh - 1 - v) * c.bw + (c.bw - 1 - u))
      = Memory.read z.bmp (rectKey c true z k (c.tileW - 1 - dx) (c.tileH - 1 - dy)) := by rw [rectKey_congr ham, hmirror]
    _ = renderPen c true z k (c.tileW - 1 - dx) (c.tileH - 1 - dy) := hzs k hk _ (by omega) _ (by omega)
    _ = renderPen c false y k dx dy := by rw [renderPen_congr htm ham, renderPen_flip hdx hdy]
    _ = Memory.read y.bmp (v * c.bw + u) := by rw [← hys k hk dx hdx dy hdy, hrect]

/-- The pen of a flipped layer at a pixel is the pen of the unflipped one at the mirrored pixel. -/
theorem layerPen_mirror (hc : c.ok = true) (htm : z.tm = y.tm) (ham : z.am = y.am) (hscx : z.scx = y.scx) (hscy : z.scy = y.scy)
    (hys : ∀ k < c.nt, tileShown c false y k) (hzs : ∀ k < c.nt, tileShown c true z k) (hx : px < cfg.screenW) (hy : py < cfg.screenH) :
    layerPen cfg true c z px py = layerPen cfg false c y (cfg.screenW - 1 - px) (cfg.screenH - 1 - py) := by
  have hw := LayerCfg.bw_pos hc
  have hh := LayerCfg.bh_pos hc
  have hu := sourceAxis_lt (pos := px) (scroll := y.scx) (screen := cfg.screenW) hw true
  have hv := sourceAxis_lt (pos := py) (scroll := y.scy) (screen := cfg.screenH) hh true
  simp only [layerPen, layerSource, hscx, hscy]
  rw [sourceAxis_mirror hw hx, sourceAxis_mirror hh hy, ← bmp_mirror_of_shown htm ham hys hzs (by omega) (by omega)]
  congr 3 <;> omega

/-- `COMP` keeps two machines at the same memories. -/
theorem State.SameMemory.composite (h : s.SameMemory t) (hs : s.wf = true) (ht : t.wf = true) :
    s.composite.SameMemory t.composite := by
  obtain ⟨hcfg, hspr, hlen, hlayers⟩ := h
  have hlen' : s.composite.layers.length = t.composite.layers.length := by
    rw [State.composite_layers_length, State.composite_layers_length, hlen]
  refine ⟨hcfg, hspr, hlen', fun l y' z' hy' hz' => ?_⟩
  have hl := (List.getElem?_eq_some_iff.1 hy').1
  have hl' := (List.getElem?_eq_some_iff.1 hz').1
  rw [State.composite_layers_length] at hl hl'
  obtain ⟨bmp, hy⟩ := State.composite_record hs (List.getElem?_eq_getElem hl)
  obtain ⟨bmp', hz⟩ := State.composite_record ht (List.getElem?_eq_getElem hl')
  obtain rfl := Option.some.inj (hy.symm.trans hy')
  obtain rfl := Option.some.inj (hz.symm.trans hz')
  exact hlayers l s.layers[l] t.layers[l] (List.getElem?_eq_getElem hl) (List.getElem?_eq_getElem hl')

section Mirror

variable (hs : s.wf = true) (ht : t.wf = true) (hsc : s.Coherent) (htc : t.Coherent) (hm : s.SameMemory t) (hf : s.flip = false)
  (hf' : t.flip = true)

include hs ht hsc htc hm hf hf'

/-- After `COMP` of two such machines every layer of the flipped one shows the mirror of that layer in the other. -/
theorem composite_layerPen_mirror (hc : s.cfg.layers[l]? = some c) (hy : s.composite.layers[l]? = some y)
    (hz : t.composite.layers[l]? = some z) (hx : px < s.cfg.screenW) (hpy : py < s.cfg.screenH) :
    layerPen s.cfg true c z px py = layerPen s.cfg false c y (s.cfg.screenW - 1 - px) (s.cfg.screenH - 1 - py) := by
  obtain ⟨hcfg, -, -, hlayers⟩ := hm.composite hs ht
  obtain ⟨htm, ham, hscx, hscy⟩ := hlayers l y z hy hz
  have hcy : s.composite.layerAt l = some (c, y) := State.layerAt_eq_some.2 ⟨hc, hy⟩
  have hcz : t.composite.layerAt l = some (c, z) := State.layerAt_eq_some.2 ⟨hcfg ▸ hc, hz⟩
  exact layerPen_mirror (Cfg.layer_ok s.built.ok hc) htm.symm ham.symm hscx.symm hscy.symm
    (fun k hk => hf ▸ State.tileShown_composite hs hsc hcy hk) (fun k hk => hf' ▸ State.tileShown_composite ht htc hcz hk) hx hpy

/-- The flipped screen after the tile phases is the point mirror of the unflipped one. -/
theorem compositeTiles_mirror (hx : px < s.cfg.screenW) (hy : py < s.cfg.screenH) :
    Memory.read t.compositeTiles.fb (pixelKey s.cfg px py) = Memory.read s.compositeTiles.fb (mirrorKey s.cfg px py) ∧
      Memory.read t.compositeTiles.pri (pixelKey s.cfg px py) = Memory.read s.compositeTiles.pri (mirrorKey s.cfg px py) := by
  obtain ⟨hcfg, -, hlen, -⟩ := hm.composite hs ht
  have hcfg : t.cfg = s.cfg := hcfg.symm
  have hx' : s.cfg.screenW - 1 - px < s.cfg.screenW := by omega
  have hy' : s.cfg.screenH - 1 - py < s.cfg.screenH := by omega
  have hfb := State.compositeTiles_fb (s := t) (px := px) (py := py) (hcfg ▸ hx) (hcfg ▸ hy)
  have hpri := State.compositeTiles_pri (s := t) (px := px) (py := py) (hcfg ▸ hx) (hcfg ▸ hy)
  rw [hcfg, hf'] at hfb hpri
  rw [hfb, hpri, mirrorKey, State.compositeTiles_fb hx' hy', State.compositeTiles_pri hx' hy', hf]
  refine stack_congr hlen.symm (fun l c z y hc hzl hyl => ?_) _ _
  exact composite_layerPen_mirror hs ht hsc htc hm hf hf' hc hyl hzl hx hy

end Mirror

/-- Settles O44. -/
theorem tileFlipSymmetry : Obligations.TileFlipSymmetry :=
  fun _ _ hs ht hsc htc hm hf hf' _ hx _ hy => compositeTiles_mirror hs ht hsc htc hm hf hf' hx hy

end Sys2Proof.Machine
end

section
/-!
PROOFS. The picture of a sprite (`43_sprite_compositor.md` R191 to R196): the code of a cell bit by bit, the default `LAYOUT`, the cell
a pixel of the picture comes from, the picture of a record from its bytes, and its place under `CTRL.FLIP`.
-/

namespace Sys2Proof.Machine

variable {cfg : Cfg} {g : SpriteImage} {code nx ny cx cy b : Nat}

/-! ### The code of a cell (R195) -/

/-- A bit of an OR over a list is a bit of the start value or of a member. -/
theorem testBit_foldl_or {α : Type} (f : α → Nat) (ds : List α) (m b : Nat) :
    (ds.foldl (fun m d => m ||| f d) m).testBit b = true ↔ m.testBit b = true ∨ ∃ d ∈ ds, (f d).testBit b = true := by
  induction ds generalizing m with
  | nil => simp
  | cons d ds ih =>
    rw [List.foldl_cons, ih, Nat.testBit_or, Bool.or_eq_true, or_assoc, List.exists_mem_cons_iff]

/-- The mask holds the bits that some cell of the sprite has in `LAYOUT`. -/
theorem testBit_layoutMask : (layoutMask cfg nx ny).testBit b = true ↔
    ∃ j < ny, ∃ k < nx, (cfg.layoutAt j k).testBit b = true := by
  rw [layoutMask, testBit_foldl_or, Nat.zero_testBit]
  simp only [Bool.false_eq_true, false_or, mem_pixels, Prod.exists]
  constructor
  · rintro ⟨k, j, ⟨hk, hj⟩, hb⟩
    exact ⟨j, hj, k, hk, hb⟩
  · rintro ⟨j, hj, k, hk, hb⟩
    exact ⟨k, j, ⟨hk, hj⟩, hb⟩

@[simp] theorem testBit_clearBits (code m b : Nat) : (clearBits code m).testBit b = (code.testBit b && !m.testBit b) := by
  rw [clearBits, Nat.testBit_xor, Nat.testBit_and]
  cases code.testBit b <;> simp

/-- Settles O47: a used bit is cleared in the code before the cell's entry is put in, an unused one is 0 in the entry. -/
theorem cellCodeReplacesTheUsedBits : Obligations.CellCodeReplacesTheUsedBits := by
  intro cfg code nx ny cx cy hcx hcy
  refine ⟨_, rfl, fun b => ⟨fun hused => ?used, fun hunused => ?unused⟩⟩
  case used =>
    rw [Nat.testBit_or, testBit_clearBits, testBit_layoutMask.2 hused, Bool.not_true, Bool.and_false, Bool.false_or]
  case unused =>
    have hmask : (layoutMask cfg nx ny).testBit b = false := by
      rw [← Bool.not_eq_true, testBit_layoutMask]
      rintro ⟨j, hj, k, hk, hb⟩
      exact absurd (hunused j hj k hk) (by rw [hb]; decide)
    rw [Nat.testBit_or, testBit_clearBits, hmask, hunused cy hcy cx hcx, Bool.not_false, Bool.and_true, Bool.or_false]

/-! ### The default `LAYOUT` (R196) -/

/-- Clearing the low `k` bits rounds down to a multiple of `2 ^ k`. -/
theorem clearBits_low (code k : Nat) : clearBits code (2 ^ k - 1) = code / 2 ^ k * 2 ^ k := by
  rw [← Nat.shiftRight_eq_div_pow, ← Nat.shiftLeft_eq]
  refine Nat.eq_of_testBit_eq (fun i => ?_)
  rw [testBit_clearBits, Nat.testBit_two_pow_sub_one, Nat.testBit_shiftLeft, Nat.testBit_shiftRight]
  by_cases hi : k ≤ i
  · simp [hi]
  · simp [hi, Nat.lt_of_not_le hi]

/-- The bits of `cx` and `cy` interleaved, entry by entry of the table. -/
theorem defaultLayout_interleaves : ∀ cy < 8, ∀ cx < 8, (defaultLayout.getD (8 * cy + cx) 0).val =
    cx % 2 + 2 * (cy % 2) + 4 * (cx / 2 % 2) + 8 * (cy / 2 % 2) + 16 * (cx / 4) + 32 * (cy / 4) := by
  decide

/-- The masks of the sixteen sizes of a sprite. -/
theorem layoutMask_of_default (h : cfg.layout = defaultLayout) : ∀ a < 4, ∀ b < 4, layoutMask cfg (2 ^ a) (2 ^ b) =
    [0, 1, 5, 21].getD a 0 + 2 * [0, 1, 5, 21].getD b 0 := by
  simp only [layoutMask, Cfg.layoutAt, h]
  decide

/-- Settles O54: the entries and the masks are read off the table; a 2 by 2 sprite has the mask 3 and the entries 0 to 3. -/
theorem defaultLayoutInterleaves : Obligations.DefaultLayoutInterleaves := by
  intro cfg h
  have hentry : ∀ cy < 8, ∀ cx < 8, cfg.layoutAt cy cx =
      cx % 2 + 2 * (cy % 2) + 4 * (cx / 2 % 2) + 8 * (cy / 2 % 2) + 16 * (cx / 4) + 32 * (cy / 4) := by
    simpa only [Cfg.layoutAt, h] using defaultLayout_interleaves
  refine ⟨hentry, layoutMask_of_default h, fun code cx cy hcx hcy => ?_⟩
  have hmask : layoutMask cfg 2 2 = 2 ^ 2 - 1 := layoutMask_of_default h 1 (by decide) 1 (by decide)
  have hcell : cfg.layoutAt cy cx = 2 * cy + cx := by
    rw [hentry cy (by omega) cx (by omega)]
    omega
  have hclear : clearBits code (2 ^ 2 - 1) = 4 * (code / 4) := (clearBits_low code 2).trans (Nat.mul_comm _ _)
  have hor : 4 * (code / 4) + (2 * cy + cx) = 4 * (code / 4) ||| (2 * cy + cx) :=
    Nat.two_pow_add_eq_or_of_lt (i := 2) (by omega) _
  rw [cellCode, hmask, hcell, hclear, ← hor, Nat.mul_comm 4]

/-! ### The cell of a pixel (R194) -/

/-- One axis of the flip of a picture as a whole: position `d` of `w`. -/
def flipAxis (f : Bool) (w d : Nat) : Nat := if f then w - 1 - d else d

/-- The pen of a picture pixel is a pixel of the cell where the flips lead. -/
theorem spritePen_eq (fx fy : Bool) (dx dy : Nat) : spritePen cfg g fx fy dx dy =
    cfg.spenAt g.color (cfg.sgfxAt
      (cellCode cfg g.code g.nx g.ny (flipAxis fx (g.nx * cfg.cellW) dx / cfg.cellW) (flipAxis fy (g.ny * cfg.cellH) dy / cfg.cellH))
      (flipAxis fy (g.ny * cfg.cellH) dy % cfg.cellH) (flipAxis fx (g.nx * cfg.cellW) dx % cfg.cellW)) := rfl

theorem flipAxis_flipAxis {w d : Nat} (hd : d < w) (f : Bool) : flipAxis f w (flipAxis f w d) = d := by
  cases f with
  | false => rfl
  | true => exact Nat.sub_sub_self (Nat.le_sub_one_of_lt hd)

/-- The toggled flip of the mirrored position is the flip of the position. -/
theorem flipAxis_not {w d : Nat} (hd : d < w) (f : Bool) : flipAxis (!f) w (w - 1 - d) = flipAxis f w d := by
  cases f with
  | false => exact Nat.sub_sub_self (Nat.le_sub_one_of_lt hd)
  | true => rfl

/-- The row of a row-major position. -/
theorem rowMajor_div {w a : Nat} (ha : a < w) (b : Nat) : (b * w + a) / w = b := by
  rw [Nat.mul_comm, Nat.mul_add_div (by omega), Nat.div_eq_of_lt ha, Nat.add_zero]

/-- Settles O48: the flip of the picture undoes the mirror, and the cell and the pixel in it are quotient and remainder. -/
theorem spritePenComesFromItsCell : Obligations.SpritePenComesFromItsCell := by
  intro cfg g fx fy cx cy ex ey hcx hcy hex hey ox oy
  have hcol : flipAxis fx (g.nx * cfg.cellW) (flipAxis fx (g.nx * cfg.cellW) ox) = ox := flipAxis_flipAxis (rowMajor_lt hex hcx) fx
  have hrow : flipAxis fy (g.ny * cfg.cellH) (flipAxis fy (g.ny * cfg.cellH) oy) = oy := flipAxis_flipAxis (rowMajor_lt hey hcy) fy
  show spritePen cfg g fx fy (flipAxis fx (g.nx * cfg.cellW) ox) (flipAxis fy (g.ny * cfg.cellH) oy) = _
  rw [spritePen_eq, hcol, hrow, rowMajor_div hex, rowMajor_div hey, Nat.mul_add_mod_of_lt hex, Nat.mul_add_mod_of_lt hey]

/-- The picture with both flips toggled is its point mirror (R194, R202). -/
theorem spritePen_mirror {dx dy : Nat} (hx : dx < g.nx * cfg.cellW) (hy : dy < g.ny * cfg.cellH) (fx fy : Bool) :
    spritePen cfg g (!fx) (!fy) (g.nx * cfg.cellW - 1 - dx) (g.ny * cfg.cellH - 1 - dy) = spritePen cfg g fx fy dx dy := by
  rw [spritePen_eq, spritePen_eq, flipAxis_not hx, flipAxis_not hy]

/-! ### The picture of a record (R192) -/

/-- The size of the picture in numbers. -/
theorem spriteImage_eq (r : SpriteRecord) : spriteImage r = ⟨2 ^ r.sizeX, 2 ^ r.sizeY, r.code, r.color, r.priorityMask⟩ := by
  rw [spriteImage, Nat.one_shiftLeft, Nat.one_shiftLeft]

/-- The size fields are 0 (R28) or have two bits (R29). -/
theorem spriteRecord_size_lt_four (spr : Memory) (n : Nat) :
    (spriteRecord cfg spr n).sizeX < 4 ∧ (spriteRecord cfg spr n).sizeY < 4 := by
  cases hstride : cfg.stride with
  | four =>
    obtain ⟨-, -, -, -, -, -, -, hsx, hsy, -⟩ := fourByteRecordFields cfg spr n hstride
    omega
  | sixteen =>
    obtain ⟨-, -, -, -, -, -, -, hsy, hsx, -⟩ := sixteenByteRecordFields cfg spr n hstride
    omega

/-- A sprite is 1, 2, 4 or 8 cells across or down. -/
theorem two_pow_mem_of_lt_four : ∀ k < 4, 2 ^ k ∈ [1, 2, 4, 8] := by decide

/-- Settles O56: the fields of the record in numbers, stride by stride. -/
theorem spriteImageOfRecordBytes : Obligations.SpriteImageOfRecordBytes := by
  intro cfg spr n
  obtain ⟨hsx, hsy⟩ := spriteRecord_size_lt_four (cfg := cfg) spr n
  rw [spriteImage_eq]
  refine ⟨fun hstride => ?four, fun hstride => ?sixteen, two_pow_mem_of_lt_four _ hsx, two_pow_mem_of_lt_four _ hsy⟩
  case four =>
    obtain ⟨-, -, hcode, hcolor, -, -, -, hsizeX, hsizeY, hmask⟩ := fourByteRecordFields cfg spr n hstride
    simp only [hstride, hcode, hcolor, hsizeX, hsizeY, hmask]
    exact ⟨rfl, rfl, rfl, rfl, rfl⟩
  case sixteen =>
    obtain ⟨-, -, hcode, hcolor, -, -, -, hsizeY, hsizeX, hmask⟩ := sixteenByteRecordFields cfg spr n hstride
    simp only [hstride, hcode, hcolor, hsizeX, hsizeY, hmask]
    exact ⟨rfl, rfl, rfl, rfl, rfl⟩

/-! ### The place of a record (R193) -/

/-- Settles O53. -/
theorem spritePlaceIsMirrored : Obligations.SpritePlaceIsMirrored := by
  intro cfg x y w h fx fy
  refine ⟨rfl, rfl, rfl, fun d hd => ?column, fun d hd => ?row⟩
  case column =>
    simp only [spritePlace, if_true]
    omega
  case row =>
    simp only [spritePlace, if_true]
    omega

end Sys2Proof.Machine
end

section
/-!
PROOFS. The sprite pass on a screen pixel (`43_sprite_compositor.md` R190 to R201): one draw, one record, the list of records, and the
lowest-numbered record seen.
-/

namespace Sys2Proof.Machine

variable {cfg : Cfg} {g : SpriteImage} {p : SpritePlace} {spr pri fb : Memory} {flip : Bool} {n N px py : Nat} {pen : Byte}

/-! ### One draw (R194, R197 to R199) -/

/-- The pen is not the sprites' transparent one (R198) and the priority byte of the pixel allows it (R199). -/
def penShows (cfg : Cfg) (pri : Memory) (g : SpriteImage) (px py : Nat) (pen : Byte) : Prop :=
  cfg.sprTransp ≠ some pen ∧ Memory.read pri (pixelKey cfg px py) &&& g.pmask = 0

/-- One pixel of the picture is written where it stands on the screen, unless its pen does not show there (R197 to R199). -/
theorem spriteCell_eq_some {dx dy : Nat} {e : Host.Cell} : spriteCell cfg pri p g (dx, dy) = some e ↔
    ∃ px < cfg.screenW, ∃ py < cfg.screenH, (px : Int) = p.sx + dx ∧ (py : Int) = p.sy + dy ∧
      penShows cfg pri g px py (spritePen cfg g p.fx p.fy dx dy) ∧ e = (pixelKey cfg px py, spritePen cfg g p.fx p.fy dx dy) := by
  simp only [spriteCell, Option.ite_none_right_eq_some, Bool.and_eq_true, opaquePen_iff, spriteAllowed, decide_eq_true_eq,
    Option.some.injEq]
  constructor
  · rintro ⟨hscreen, hshows, rfl⟩
    exact ⟨(p.sx + dx).toNat, by omega, (p.sy + dy).toNat, by omega, by omega, by omega, hshows, rfl⟩
  · rintro ⟨px, hx, py, hy, hpx, hpy, hshows, rfl⟩
    rw [← hpx, ← hpy]
    exact ⟨by omega, hshows, rfl⟩

/-- A sprite puts a pen on a pixel where one pixel of its picture stands and that pixel's pen shows. -/
theorem placedPen_eq_some : placedPen cfg pri p g px py = some pen ↔
    ∃ dx < g.nx * cfg.cellW, ∃ dy < g.ny * cfg.cellH, (px : Int) = p.sx + dx ∧ (py : Int) = p.sy + dy ∧
      penShows cfg pri g px py pen ∧ pen = spritePen cfg g p.fx p.fy dx dy := by
  simp only [placedPen, Option.ite_none_right_eq_some, Option.some.injEq, ← Int.natCast_mul]
  constructor
  · rintro ⟨hinside, hshows, rfl⟩
    exact ⟨(px - p.sx).toNat, by omega, (py - p.sy).toNat, by omega, by omega, by omega, hshows, rfl⟩
  · rintro ⟨dx, hdx, dy, hdy, hpx, hpy, hshows, rfl⟩
    obtain rfl : dx = ((px : Int) - p.sx).toNat := by omega
    obtain rfl : dy = ((py : Int) - p.sy).toNat := by omega
    exact ⟨by omega, hshows, rfl⟩

/-- The framebuffer writes of one draw (R194). -/
def spriteCells (cfg : Cfg) (pri : Memory) (p : SpritePlace) (g : SpriteImage) : List Host.Cell :=
  (pixels (g.nx * cfg.cellW) (g.ny * cfg.cellH)).filterMap (spriteCell cfg pri p g)

theorem drawSpriteAt_eq : drawSpriteAt cfg pri p g fb = Memory.writeMany fb (spriteCells cfg pri p g) := rfl

/-- The writes of one draw are the pens it puts on the pixels of the screen. -/
theorem mem_spriteCells {e : Host.Cell} : e ∈ spriteCells cfg pri p g ↔
    ∃ px < cfg.screenW, ∃ py < cfg.screenH, ∃ pen, placedPen cfg pri p g px py = some pen ∧ e = (pixelKey cfg px py, pen) := by
  simp only [spriteCells, List.mem_filterMap, Prod.exists, mem_pixels, spriteCell_eq_some, placedPen_eq_some]
  constructor
  · rintro ⟨dx, dy, ⟨hdx, hdy⟩, px, hx, py, hy, hpx, hpy, hshows, rfl⟩
    exact ⟨px, hx, py, hy, _, ⟨dx, hdx, dy, hdy, hpx, hpy, hshows, rfl⟩, rfl⟩
  · rintro ⟨px, hx, py, hy, _, ⟨dx, hdx, dy, hdy, hpx, hpy, hshows, rfl⟩, rfl⟩
    exact ⟨dx, dy, ⟨hdx, hdy⟩, px, hx, py, hy, hpx, hpy, hshows, rfl⟩

theorem spriteCells_lt : ∀ e ∈ spriteCells cfg pri p g, e.1 < cfg.screenSize := by
  intro e he
  obtain ⟨px, hx, py, hy, pen, -, rfl⟩ := mem_spriteCells.1 he
  exact pixelKey_lt hx hy

/-- A write of one draw at a pixel's key holds the pen the sprite puts on that pixel. -/
theorem placedPen_of_mem_spriteCells (hx : px < cfg.screenW) {e : Host.Cell} (he : e ∈ spriteCells cfg pri p g)
    (hkey : e.1 = pixelKey cfg px py) : placedPen cfg pri p g px py = some e.2 := by
  obtain ⟨px', hx', py', -, pen, hpen, rfl⟩ := mem_spriteCells.1 he
  obtain ⟨rfl, rfl⟩ := rowMajor_inj hx' hx hkey
  exact hpen

/-- Settles O46: every write at the pixel's key holds the placed pen, and there is one exactly when there is such a pen. -/
theorem drawSpriteAtPixel : Obligations.DrawSpriteAtPixel := by
  intro cfg pri fb p g px py hfb hx hy
  rw [drawSpriteAt_eq]
  cases hpen : placedPen cfg pri p g px py with
  | none =>
    refine Memory.read_writeMany_other hfb spriteCells_lt (fun e he hkey => ?_)
    have := placedPen_of_mem_spriteCells hx he hkey
    rw [hpen] at this
    cases this
  | some pen =>
    refine Memory.read_writeMany_same hfb spriteCells_lt (fun e he hkey => ?_)
      ⟨(pixelKey cfg px py, pen), mem_spriteCells.2 ⟨px, hx, py, hy, pen, hpen, rfl⟩, rfl⟩
    have := placedPen_of_mem_spriteCells hx he hkey
    rw [hpen] at this
    exact (Option.some.inj this).symm

/-! ### One record (R191 to R193, R201) -/

/-- The place of record `n` under a value of `CTRL.FLIP` (R193). -/
def recordPlace (cfg : Cfg) (flip : Bool) (spr : Memory) (n : Nat) : SpritePlace :=
  let r := spriteRecord cfg spr n
  let g := spriteImage r
  spritePlace cfg flip r.x r.y (g.nx * cfg.cellW) (g.ny * cfg.cellH) r.flipX r.flipY

theorem drawSpriteRecord_of_disabled (h : (spriteRecord cfg spr n).enable = false) : drawSpriteRecord cfg flip spr pri n fb = fb := by
  simp only [drawSpriteRecord, h, Bool.false_eq_true, if_false]

theorem drawSpriteRecord_once (h : (spriteRecord cfg spr n).enable = true) (hn : n ∉ cfg.doubleDraw) :
    drawSpriteRecord cfg flip spr pri n fb =
      drawSpriteAt cfg pri (recordPlace cfg flip spr n) (spriteImage (spriteRecord cfg spr n)) fb := by
  simp only [drawSpriteRecord, h, List.elem_eq_mem, hn, decide_false, Bool.false_eq_true, if_true, if_false]
  rfl

theorem drawSpriteRecord_twice (h : (spriteRecord cfg spr n).enable = true) (hn : n ∈ cfg.doubleDraw) :
    drawSpriteRecord cfg flip spr pri n fb =
      drawSpriteAt cfg pri (secondPlace (recordPlace cfg flip spr n)) (spriteImage (spriteRecord cfg spr n))
        (drawSpriteAt cfg pri (recordPlace cfg flip spr n) (spriteImage (spriteRecord cfg spr n)) fb) := by
  simp only [drawSpriteRecord, h, List.elem_eq_mem, hn, decide_true, if_true]
  rfl

theorem recordPen_of_disabled (h : (spriteRecord cfg spr n).enable = false) : recordPen cfg flip spr pri n px py = none := by
  simp only [recordPen, h, Bool.false_eq_true, if_false]

theorem recordPen_once (h : (spriteRecord cfg spr n).enable = true) (hn : n ∉ cfg.doubleDraw) :
    recordPen cfg flip spr pri n px py =
      placedPen cfg pri (recordPlace cfg flip spr n) (spriteImage (spriteRecord cfg spr n)) px py := by
  simp only [recordPen, recordPlace, spriteImage_eq, h, hn, if_true, if_false]

theorem recordPen_twice (h : (spriteRecord cfg spr n).enable = true) (hn : n ∈ cfg.doubleDraw) :
    recordPen cfg flip spr pri n px py =
      (placedPen cfg pri (secondPlace (recordPlace cfg flip spr n)) (spriteImage (spriteRecord cfg spr n)) px py).or
        (placedPen cfg pri (recordPlace cfg flip spr n) (spriteImage (spriteRecord cfg spr n)) px py) := by
  simp only [recordPen, recordPlace, secondPlace, spriteImage_eq, h, hn, if_true]

/-- Settles O57: the place is the record's own, and the draws are those of the three forms of a record. -/
theorem recordIsDrawnOnceOrTwice : Obligations.RecordIsDrawnOnceOrTwice := by
  intro cfg flip spr pri fb n r g
  have hg : g = spriteImage r := (spriteImage_eq r).symm
  rw [hg]
  refine ⟨recordPlace cfg flip spr n, ?unflipped, ?flipped, drawSpriteRecord_of_disabled, drawSpriteRecord_once, drawSpriteRecord_twice⟩
  case unflipped =>
    rintro rfl
    rfl
  case flipped =>
    rintro rfl
    simp only [recordPlace, spritePlace, spriteImage_eq, if_true]
    push_cast
    rfl

/-- One record on a pixel: its pen where it has one there, else the pixel as it was. -/
theorem read_drawSpriteRecord (hfb : Memory.wf cfg.screenSize fb = true) (hx : px < cfg.screenW) (hy : py < cfg.screenH) :
    Memory.read (drawSpriteRecord cfg flip spr pri n fb) (pixelKey cfg px py) =
      (recordPen cfg flip spr pri n px py).getD (Memory.read fb (pixelKey cfg px py)) := by
  cases henable : (spriteRecord cfg spr n).enable with
  | false => rw [drawSpriteRecord_of_disabled henable, recordPen_of_disabled henable, Option.getD_none]
  | true =>
    by_cases hn : n ∈ cfg.doubleDraw
    · rw [drawSpriteRecord_twice henable hn, recordPen_twice henable hn, drawSpriteAtPixel cfg pri _ _ _ px py (drawSpriteAt_wf hfb) hx hy,
        drawSpriteAtPixel cfg pri fb _ _ px py hfb hx hy, Option.getD_or]
    · rw [drawSpriteRecord_once henable hn, recordPen_once henable hn, drawSpriteAtPixel cfg pri fb _ _ px py hfb hx hy]

/-! ### The list of records (R190) -/

/-- Where none of the first `N` records has a pen, drawing them leaves the pixel. -/
theorem read_drawSprites_of_none (hfb : Memory.wf cfg.screenSize fb = true) (hx : px < cfg.screenW) (hy : py < cfg.screenH)
    (h : ∀ n < N, recordPen cfg flip spr pri n px py = none) :
    Memory.read (drawSprites cfg flip spr pri N fb) (pixelKey cfg px py) = Memory.read fb (pixelKey cfg px py) := by
  induction N generalizing fb with
  | zero => rfl
  | succ N ih =>
    rw [drawSprites, ih (drawSpriteRecord_wf hfb) fun n hn => h n (by omega), read_drawSpriteRecord hfb hx hy, h N N.lt_succ_self,
      Option.getD_none]

/-- The lowest of the first `N` records that has a pen on the pixel is drawn last there. -/
theorem read_drawSprites_of_lowest (hfb : Memory.wf cfg.screenSize fb = true) (hx : px < cfg.screenW) (hy : py < cfg.screenH) (hn : n < N)
    (hpen : recordPen cfg flip spr pri n px py = some pen) (hlower : ∀ m < n, recordPen cfg flip spr pri m px py = none) :
    Memory.read (drawSprites cfg flip spr pri N fb) (pixelKey cfg px py) = pen := by
  induction N generalizing fb with
  | zero => omega
  | succ N ih =>
    rw [drawSprites]
    obtain hlt | rfl : n < N ∨ n = N := by omega
    · exact ih (drawSpriteRecord_wf hfb) hlt
    · rw [read_drawSprites_of_none (drawSpriteRecord_wf hfb) hx hy hlower, read_drawSpriteRecord hfb hx hy, hpen, Option.getD_some]

/-- Disabled records leave the framebuffer. -/
theorem drawSprites_of_disabled (h : ∀ n < N, (spriteRecord cfg spr n).enable = false) : drawSprites cfg flip spr pri N fb = fb := by
  induction N generalizing fb with
  | zero => rfl
  | succ N ih => rw [drawSprites, drawSpriteRecord_of_disabled (h N N.lt_succ_self), ih fun n hn => h n (by omega)]

/-- The framebuffer of the tile phases is in canonical form. -/
theorem State.compositeTiles_fb_wf {s : State} (hs : s.wf = true) : Memory.wf s.cfg.screenSize s.compositeTiles.fb = true := by
  obtain ⟨-, -, -, hfb, -⟩ := State.wf_iff.1 (State.wf_compositeTiles hs)
  exact hfb

/-- Settles O49: the sprite pass draws the list over the tile picture and reads the tile phases' `PRI`. -/
theorem lowestRecordIsOnTop : Obligations.LowestRecordIsOnTop := by
  intro s px py hs hx hy
  have hfb := State.compositeTiles_fb_wf hs
  exact ⟨_, exec_eq .comp s, rfl, fun n hn pen hpen hlower => read_drawSprites_of_lowest hfb hx hy hn hpen hlower,
    fun hnone => read_drawSprites_of_none hfb hx hy hnone⟩

/-- Settles O50. -/
theorem disabledSpritesDrawNothing : Obligations.DisabledSpritesDrawNothing :=
  fun s _ hdisabled => ⟨_, exec_eq .comp s, drawSprites_of_disabled hdisabled⟩

end Sys2Proof.Machine
end

section
/-!
PROOFS. The point mirror of a whole frame (`43_sprite_compositor.md` R202): the flipped draw of a record is the mirror of the unflipped
one, record by record over the mirrored tile picture (`42_tile_compositor.md` R173).
-/

namespace Sys2Proof.Machine

variable {cfg : Cfg} {g : SpriteImage} {spr pri pri' fb fb' : Memory} {n N px py : Nat}

/-- The flipped sprite puts on a pixel the pen the unflipped one puts on the mirrored pixel: its place and both its flips are mirrored
(R193), and so is the priority byte. -/
theorem placedPen_mirror (hx : px < cfg.screenW) (hy : py < cfg.screenH)
    (hpri : Memory.read pri' (pixelKey cfg px py) = Memory.read pri (mirrorKey cfg px py)) (x y : Int) (fx fy : Bool) :
    placedPen cfg pri' (spritePlace cfg true x y (g.nx * cfg.cellW) (g.ny * cfg.cellH) fx fy) g px py =
      placedPen cfg pri (spritePlace cfg false x y (g.nx * cfg.cellW) (g.ny * cfg.cellH) fx fy) g
        (cfg.screenW - 1 - px) (cfg.screenH - 1 - py) := by
  simp only [placedPen, spritePlace, if_true, Bool.false_eq_true, if_false, ← Int.natCast_mul]
  refine ite_congr (propext (by omega)) (fun hinside => ?_) (fun _ => rfl)
  have hdx : (px - (cfg.screenW - (g.nx * cfg.cellW : Nat) - x) : Int).toNat =
      g.nx * cfg.cellW - 1 - ((cfg.screenW - 1 - px : Nat) - x : Int).toNat := by omega
  have hdy : (py - (cfg.screenH - (g.ny * cfg.cellH : Nat) - y) : Int).toNat =
      g.ny * cfg.cellH - 1 - ((cfg.screenH - 1 - py : Nat) - y : Int).toNat := by omega
  rw [hdx, hdy, spritePen_mirror (by omega) (by omega), hpri, mirrorKey]

/-- The pen of a record drawn once, under the two values of `CTRL.FLIP`. -/
theorem recordPen_mirror (hdouble : cfg.doubleDraw = []) (hx : px < cfg.screenW) (hy : py < cfg.screenH)
    (hpri : Memory.read pri' (pixelKey cfg px py) = Memory.read pri (mirrorKey cfg px py)) :
    recordPen cfg true spr pri' n px py = recordPen cfg false spr pri n (cfg.screenW - 1 - px) (cfg.screenH - 1 - py) := by
  cases henable : (spriteRecord cfg spr n).enable with
  | false => rw [recordPen_of_disabled henable, recordPen_of_disabled henable]
  | true =>
    have hn : n ∉ cfg.doubleDraw := hdouble ▸ List.not_mem_nil
    rw [recordPen_once henable hn, recordPen_once henable hn]
    exact placedPen_mirror hx hy hpri _ _ _ _

/-- Equal pixels stay equal through two lists of records that have equal pens on them. -/
theorem read_drawSprites_congr {flip flip' : Bool} {px' py' : Nat} (hfb : Memory.wf cfg.screenSize fb = true)
    (hfb' : Memory.wf cfg.screenSize fb' = true) (hx : px < cfg.screenW) (hy : py < cfg.screenH) (hx' : px' < cfg.screenW)
    (hy' : py' < cfg.screenH) (hpen : ∀ n, recordPen cfg flip spr pri n px py = recordPen cfg flip' spr pri' n px' py')
    (hpixel : Memory.read fb (pixelKey cfg px py) = Memory.read fb' (pixelKey cfg px' py')) :
    Memory.read (drawSprites cfg flip spr pri N fb) (pixelKey cfg px py) =
      Memory.read (drawSprites cfg flip' spr pri' N fb') (pixelKey cfg px' py') := by
  induction N generalizing fb fb' with
  | zero => exact hpixel
  | succ N ih =>
    refine ih (drawSpriteRecord_wf hfb) (drawSpriteRecord_wf hfb') ?_
    rw [read_drawSpriteRecord hfb hx hy, read_drawSpriteRecord hfb' hx' hy', hpen, hpixel]

/-- Settles O45: the tile picture and `PRI` are mirrored by O44, and each record's pen over them is. -/
theorem frameFlipSymmetry : Obligations.FrameFlipSymmetry := by
  intro s t hs ht hsc htc hm hf hf' hdouble
  refine ⟨_, _, exec_eq .comp s, exec_eq .comp t, fun px hx py hy => ?_⟩
  obtain ⟨hfb, hpri⟩ := tileFlipSymmetry s t hs ht hsc htc hm hf hf' px hx py hy
  have hwf := State.compositeTiles_fb_wf hs
  have hwf' := State.compositeTiles_fb_wf ht
  obtain ⟨hcfg, hspr, -, -⟩ := hm
  show Memory.read t.composite.fb (pixelKey s.cfg px py) = Memory.read s.composite.fb (mirrorKey s.cfg px py)
  rw [State.composite_fb, State.composite_fb, hf, hf', ← hcfg, ← hspr]
  exact read_drawSprites_congr (hcfg ▸ hwf') hwf hx hy (by omega) (by omega) (fun n => recordPen_mirror hdouble hx hy hpri) hfb

end Sys2Proof.Machine
end

section
/-!
PROOFS. Completion of every command (`60_exceptions.md` R220) and which commands answer (`30_encoding.md` R96).
-/

namespace Sys2Proof.Machine

/-- The response is set exactly by the reads and the reserved opcodes, whatever the fields and the memories hold (R96). -/
theorem isSome_commandResponse (i : Instr) (s : State) : (commandResponse i s).isSome = hasResponse i := by
  cases i with
  | trd | ard | srd | rrd | drd | pxrd | rsvdE | rsvdF => rfl
  | nop | twr | awr | swr | rwr | fref | pchg | comp => rfl

/-- Settles O22: every command has an effect and a response, present or not by its mnemonic alone. -/
theorem everyCommandCompletes : Obligations.EveryCommandCompletes := by
  refine fun i s => ⟨_, exec_eq i s, ?_⟩
  rw [State.respond_rsp, isSome_commandResponse]

end Sys2Proof.Machine
end

section
/-!
PROOFS. The machine at rest: the step with nothing at the port (`60_exceptions.md` section 6, log 5) and the state `State.reset`, one of
the launch states of `10_state.md` R38 (logs 2 and 3).
-/

namespace Sys2Proof.Machine

/-- Settles O26: the idle case of the rules for a step. -/
theorem idleStepChangesNothing : Obligations.IdleStepChangesNothing :=
  fun _ hport => step_of_idle hport

/-- `State.reset` is the launch state of TC1 whose content is the unlisted byte throughout. -/
theorem State.isLaunch_reset : State.reset.IsLaunch := by
  rw [State.reset_eq]
  exact State.isLaunch_afterReset _ _ _ _

/-- Settles O32: the shape and the cache invariant are those of every launch state (O31). -/
theorem resetStateIsALaunchState : Obligations.ResetStateIsALaunchState :=
  ⟨State.isLaunch_reset, launchStatesAreCoherent State.reset State.isLaunch_reset⟩

end Sys2Proof.Machine
end
